-- ==== Sys2Proof/Word.lean ====
section
/-! DEFINITION. The plain types every other file uses: bytes, 32-bit words, 256-bit operand values, register and
immediate indexes, and the fault causes of 60_exceptions.md R301. -/

namespace Sys2Proof

/-- One byte of the host window (20_memory.md R88). -/
abbrev Byte := BitVec 8

/-- A command word, a control register or the data of a host access: 32 bits (00_scope.md R10, CMD_BITS, BUS_BITS). -/
abbrev Word32 := BitVec 32

/-- An operand register or a TMEM entry: 256 bits, an unsigned integer (00_scope.md R10 VLEN, R12). -/
abbrev Word := BitVec 256

/-- An operand register index: V0..V15 (10_state.md R31). -/
abbrev Reg := Fin 16

/-- An unsigned 10-bit immediate, in 0..1023 (30_encoding.md R121). -/
abbrev Imm := Fin 1024

/-- The fault causes of 60_exceptions.md R301. Code 0x00 (NONE, no fault since reset) is the absence of a cause, and
the reserved codes 0x08 to 0xFF, which are never reported, have no constructor. -/
inductive Cause where
  /-- 0x01, decode: the opcode is not in the map of 30_encoding.md R125. -/
  | illegalOpcode
  /-- 0x02, decode: a must-be-zero bit is 1, or a value constraint of 30_encoding.md R124 fails. -/
  | illegalField
  /-- 0x03, fetch: CP is 256 or more (44_sequencing.md R281). -/
  | cpRange
  /-- 0x04: the choice register of CSEL or CSWAP is not 0 or 1 (40_field.md R180). -/
  | badChoice
  /-- 0x05: the digit of SEL8 or SELNAF is outside its domain (43_tables.md R257, R258). -/
  | badDigit
  /-- 0x06: a scalar operand is L or more (41_scalar.md R200). -/
  | noncanonicalSc
  /-- 0x07: a field operand or a table entry is p or more (40_field.md R160, 43_tables.md R257, R258). -/
  | noncanonicalFe
  deriving DecidableEq, Repr

end Sys2Proof
end

