-- ==== Sys2Proof/Config.lean ====
section
/-! DEFINITION. What is fixed for one machine: the constants of 00_scope.md R13, the sizes of R10, the open parameters
of R11 (opaque: nothing is known of them but their type), and the power-on draw of IMEM and TMEM
(93_implementation_defined.md U1, opaque). -/

namespace Sys2Proof

/-- The prime p of the field unit (00_scope.md R13). -/
def Config.p : Nat := 2 ^ 255 - 19

/-- The prime group order L of the scalar unit (00_scope.md R13). -/
def Config.L : Nat := 2 ^ 252 + 27742317777372353535851937790883648493

/-- The Montgomery modulus R = 2^261 of the scalar unit, written as 2^256 times 32 (00_scope.md R13). -/
def Config.R : Nat := 2 ^ 256 * 32

/-- IMEM_WORDS (00_scope.md R10). -/
abbrev Config.imemWords : Nat := 256

/-- TMEM_ENTRIES (00_scope.md R10). -/
abbrev Config.tmemEntries : Nat := 1024

/-- WINDOW_BYTES (00_scope.md R10). -/
abbrev Config.windowBytes : Nat := 0x20000

/-- The window offset of operand register V0 (20_memory.md R81, R82). -/
abbrev Config.vBase : Nat := 0x400

/-- The window offset of IMEM word 0 (20_memory.md R81, R83). -/
abbrev Config.imemBase : Nat := 0x1000

/-- The window offset of TMEM entry 0 (20_memory.md R81, R90). -/
abbrev Config.tmemBase : Nat := 0x10000

/-- FREE VALUE (log 3). The byte that the given power-on (counted by `State.powerOns`) leaves at a window offset of IMEM
or TMEM: "each word or entry is a draw, free per location, not known to be 0" (93_implementation_defined.md U1). -/
opaque Config.powerOnByte : Nat → Nat → Byte

/-- OPEN PARAMETER (log 5). BACKEND, one of 0, 1, 2 (00_scope.md R11), reported in CFG and affecting no result. -/
opaque Config.backend : Fin 3

/-- OPEN PARAMETER (log 4). CORE_BASE counted in windows: CORE_BASE is a multiple of WINDOW_BYTES (00_scope.md R11). -/
opaque Config.coreBaseIndex : Nat

/-- CORE_BASE, the host address of offset 0 of the window (00_scope.md R11). -/
def Config.coreBase : Nat := Config.coreBaseIndex * Config.windowBytes

/-- OPEN PARAMETER (log 6). LAT(op, k), clock cycles as a function of the opcode and FPOW2K's count alone (00_scope.md
R11, 70_reset_and_hazards.md R351). The step is untimed and no rule depends on it. -/
opaque Config.lat : BitVec 6 → Imm → Nat

end Sys2Proof
end

