-- ==== Sys2Proof/Syntax.lean ====
section
/-! DEFINITION. The command set: one constructor per row of spec/opcode_table.json (30_encoding.md R125). Operands stand in
assembly order (R140), which is the order of the fields rd, rs1, rs2, rs3, imm (R121, R123). -/

namespace Sys2Proof

/-- The 28 commands. -/
inductive Instr where
  /-- NOP (44_sequencing.md R286). -/
  | nop
  /-- HALT (44_sequencing.md R287). -/
  | halt
  /-- MOV vd, vs1 (44_sequencing.md R288). -/
  | mov (rd rs1 : Reg)
  /-- LDC vd, index (42_constants.md R241). -/
  | ldc (rd : Reg) (index : Imm)
  /-- CSEL vd, vs1, vs2, vs3: vs3 is the choice (40_field.md R181). -/
  | csel (rd rs1 rs2 rs3 : Reg)
  /-- CSWAP va, vb, vc: va and vb may be exchanged, vc is the choice (40_field.md R182). -/
  | cswap (ra rb rc : Reg)
  /-- FADD vd, vs1, vs2 (40_field.md R161). -/
  | fadd (rd rs1 rs2 : Reg)
  /-- FSUB vd, vs1, vs2 (40_field.md R162). -/
  | fsub (rd rs1 rs2 : Reg)
  /-- FNEG vd, vs1 (40_field.md R163). -/
  | fneg (rd rs1 : Reg)
  /-- FMUL vd, vs1, vs2 (40_field.md R164). -/
  | fmul (rd rs1 rs2 : Reg)
  /-- FSQR vd, vs1 (40_field.md R165). -/
  | fsqr (rd rs1 : Reg)
  /-- FSQR2 vd, vs1 (40_field.md R166). -/
  | fsqr2 (rd rs1 : Reg)
  /-- FPOW2K vd, vs1, k (40_field.md R167). -/
  | fpow2k (rd rs1 : Reg) (k : Imm)
  /-- FFROMB vd, vs1 (40_field.md R168). -/
  | ffromb (rd rs1 : Reg)
  /-- FCHK vd, vs1 (40_field.md R169). -/
  | fchk (rd rs1 : Reg)
  /-- SADD vd, vs1, vs2 (41_scalar.md R201). -/
  | sadd (rd rs1 rs2 : Reg)
  /-- SSUB vd, vs1, vs2 (41_scalar.md R202). -/
  | ssub (rd rs1 rs2 : Reg)
  /-- SNEG vd, vs1 (41_scalar.md R203). -/
  | sneg (rd rs1 : Reg)
  /-- SMUL vd, vs1, vs2 (41_scalar.md R204). -/
  | smul (rd rs1 rs2 : Reg)
  /-- SSQR vd, vs1 (41_scalar.md R205). -/
  | ssqr (rd rs1 : Reg)
  /-- SRED vd, vs1 (41_scalar.md R206). -/
  | sred (rd rs1 : Reg)
  /-- SREDW vd, vlo, vhi (41_scalar.md R207). -/
  | sredw (rd rs1 rs2 : Reg)
  /-- STOM vd, vs1 (41_scalar.md R208). -/
  | stom (rd rs1 : Reg)
  /-- SFROMM vd, vs1 (41_scalar.md R209). -/
  | sfromm (rd rs1 : Reg)
  /-- SMMUL vd, vs1, vs2 (41_scalar.md R210). -/
  | smmul (rd rs1 rs2 : Reg)
  /-- SMSQR vd, vs1 (41_scalar.md R211). -/
  | smsqr (rd rs1 : Reg)
  /-- SEL8 vd, vdigit, tbase (43_tables.md R257). -/
  | sel8 (rd rs1 : Reg) (tbase : Imm)
  /-- SELNAF vd, vdigit, tbase (43_tables.md R258). -/
  | selnaf (rd rs1 : Reg) (tbase : Imm)
  deriving DecidableEq, Repr

end Sys2Proof
end

