-- ==== Sys2Proof/WellFormed.lean ====
section
/-! DEFINITION. The value constraints of 30_encoding.md R124, one named check each, and the well-formed commands: those the
decoder yields. -/

namespace Sys2Proof

/-- FPOW2K requires imm at least 1. -/
abbrev WellFormed.squaringCount (k : Imm) : Bool := decide (1 ≤ k.val)

/-- LDC requires imm at most 8. -/
abbrev WellFormed.romIndex (index : Imm) : Bool := decide (index.val ≤ 8)

/-- SEL8 and SELNAF require rd at most 13, since they write V[rd], V[rd+1], V[rd+2]. -/
abbrev WellFormed.tripleDest (rd : Reg) : Bool := decide (rd.val ≤ 13)

/-- SEL8 requires its 24 entries inside TMEM. -/
abbrev WellFormed.lookupTable (tbase : Imm) : Bool := decide (tbase.val + 24 ≤ Config.tmemEntries)

/-- SELNAF requires its 192 entries inside TMEM. -/
abbrev WellFormed.nafTable (tbase : Imm) : Bool := decide (tbase.val + 192 ≤ Config.tmemEntries)

/-- The value constraints of R124; no other command constrains a field value. -/
def Instr.wf : Instr → Bool
  | .nop => true
  | .halt => true
  | .mov _ _ => true
  | .ldc _ index => WellFormed.romIndex index
  | .csel _ _ _ _ => true
  | .cswap _ _ _ => true
  | .fadd _ _ _ => true
  | .fsub _ _ _ => true
  | .fneg _ _ => true
  | .fmul _ _ _ => true
  | .fsqr _ _ => true
  | .fsqr2 _ _ => true
  | .fpow2k _ _ k => WellFormed.squaringCount k
  | .ffromb _ _ => true
  | .fchk _ _ => true
  | .sadd _ _ _ => true
  | .ssub _ _ _ => true
  | .sneg _ _ => true
  | .smul _ _ _ => true
  | .ssqr _ _ => true
  | .sred _ _ => true
  | .sredw _ _ _ => true
  | .stom _ _ => true
  | .sfromm _ _ => true
  | .smmul _ _ _ => true
  | .smsqr _ _ => true
  | .sel8 rd _ tbase => WellFormed.tripleDest rd && WellFormed.lookupTable tbase
  | .selnaf rd _ tbase => WellFormed.tripleDest rd && WellFormed.nafTable tbase

end Sys2Proof
end

