-- ==== Sys2Proof/Decode.lean ====
section
/-! DEFINITION. The command encoding of 30_encoding.md: fields (R121), formats and must-be-zero bits (R122), the opcode map
(R125), the decoder (R130), total on every 32-bit word and rejecting by the name of the fault, the encoder, the
pseudo-commands (R141), and the host's view of the decoder. -/

namespace Sys2Proof

/-- The seven formats of R122. -/
inductive Format where
  | n | r1 | r2 | r3 | i | k | t
  deriving DecidableEq, Repr

/-- op, w[31:26] (R121). -/
def fieldOp (w : Word32) : BitVec 6 := w.extractLsb' 26 6

/-- rd, w[25:22] (R121). -/
def fieldRd (w : Word32) : Reg := (w.extractLsb' 22 4).toFin

/-- rs1, w[21:18] (R121). -/
def fieldRs1 (w : Word32) : Reg := (w.extractLsb' 18 4).toFin

/-- rs2, w[17:14] (R121). -/
def fieldRs2 (w : Word32) : Reg := (w.extractLsb' 14 4).toFin

/-- rs3, w[13:10] (R121). -/
def fieldRs3 (w : Word32) : Reg := (w.extractLsb' 10 4).toFin

/-- imm, w[9:0] (R121). -/
def fieldImm (w : Word32) : Imm := (w.extractLsb' 0 10).toFin

/-- The must-be-zero bits of each format (R122): N w[25:0], R1 w[17:0], R2 w[13:0], R3 w[9:0], I and T w[17:10],
K w[21:10]. -/
def Format.mbz : Format → Word32
  | .n => 0x03FFFFFF
  | .r1 => 0x0003FFFF
  | .r2 => 0x00003FFF
  | .r3 => 0x000003FF
  | .i => 0x0003FC00
  | .k => 0x003FFC00
  | .t => 0x0003FC00

/-- The opcode of each command (R125). -/
def Instr.opcode : Instr → BitVec 6
  | .nop => 0x01
  | .halt => 0x02
  | .mov _ _ => 0x03
  | .ldc _ _ => 0x04
  | .csel _ _ _ _ => 0x05
  | .cswap _ _ _ => 0x06
  | .fadd _ _ _ => 0x08
  | .fsub _ _ _ => 0x09
  | .fneg _ _ => 0x0A
  | .fmul _ _ _ => 0x0B
  | .fsqr _ _ => 0x0C
  | .fsqr2 _ _ => 0x0D
  | .fpow2k _ _ _ => 0x0E
  | .ffromb _ _ => 0x0F
  | .fchk _ _ => 0x10
  | .sadd _ _ _ => 0x18
  | .ssub _ _ _ => 0x19
  | .sneg _ _ => 0x1A
  | .smul _ _ _ => 0x1B
  | .ssqr _ _ => 0x1C
  | .sred _ _ => 0x1D
  | .sredw _ _ _ => 0x1E
  | .stom _ _ => 0x1F
  | .sfromm _ _ => 0x20
  | .smmul _ _ _ => 0x21
  | .smsqr _ _ => 0x22
  | .sel8 _ _ _ => 0x28
  | .selnaf _ _ _ => 0x29

/-- The format of each command (R122, R125). -/
def Instr.format : Instr → Format
  | .nop => .n
  | .halt => .n
  | .mov _ _ => .r1
  | .ldc _ _ => .k
  | .csel _ _ _ _ => .r3
  | .cswap _ _ _ => .r2
  | .fadd _ _ _ => .r2
  | .fsub _ _ _ => .r2
  | .fneg _ _ => .r1
  | .fmul _ _ _ => .r2
  | .fsqr _ _ => .r1
  | .fsqr2 _ _ => .r1
  | .fpow2k _ _ _ => .i
  | .ffromb _ _ => .r1
  | .fchk _ _ => .r1
  | .sadd _ _ _ => .r2
  | .ssub _ _ _ => .r2
  | .sneg _ _ => .r1
  | .smul _ _ _ => .r2
  | .ssqr _ _ => .r1
  | .sred _ _ => .r1
  | .sredw _ _ _ => .r2
  | .stom _ _ => .r1
  | .sfromm _ _ => .r1
  | .smmul _ _ _ => .r2
  | .smsqr _ _ => .r1
  | .sel8 _ _ _ => .t
  | .selnaf _ _ _ => .t

/-- The command whose opcode stands in the word, with the fields its format uses; none for an illegal opcode (R126). -/
def commandOf (w : Word32) : Option Instr :=
  match (fieldOp w).toNat with
  | 0x01 => some .nop
  | 0x02 => some .halt
  | 0x03 => some (.mov (fieldRd w) (fieldRs1 w))
  | 0x04 => some (.ldc (fieldRd w) (fieldImm w))
  | 0x05 => some (.csel (fieldRd w) (fieldRs1 w) (fieldRs2 w) (fieldRs3 w))
  | 0x06 => some (.cswap (fieldRd w) (fieldRs1 w) (fieldRs2 w))
  | 0x08 => some (.fadd (fieldRd w) (fieldRs1 w) (fieldRs2 w))
  | 0x09 => some (.fsub (fieldRd w) (fieldRs1 w) (fieldRs2 w))
  | 0x0A => some (.fneg (fieldRd w) (fieldRs1 w))
  | 0x0B => some (.fmul (fieldRd w) (fieldRs1 w) (fieldRs2 w))
  | 0x0C => some (.fsqr (fieldRd w) (fieldRs1 w))
  | 0x0D => some (.fsqr2 (fieldRd w) (fieldRs1 w))
  | 0x0E => some (.fpow2k (fieldRd w) (fieldRs1 w) (fieldImm w))
  | 0x0F => some (.ffromb (fieldRd w) (fieldRs1 w))
  | 0x10 => some (.fchk (fieldRd w) (fieldRs1 w))
  | 0x18 => some (.sadd (fieldRd w) (fieldRs1 w) (fieldRs2 w))
  | 0x19 => some (.ssub (fieldRd w) (fieldRs1 w) (fieldRs2 w))
  | 0x1A => some (.sneg (fieldRd w) (fieldRs1 w))
  | 0x1B => some (.smul (fieldRd w) (fieldRs1 w) (fieldRs2 w))
  | 0x1C => some (.ssqr (fieldRd w) (fieldRs1 w))
  | 0x1D => some (.sred (fieldRd w) (fieldRs1 w))
  | 0x1E => some (.sredw (fieldRd w) (fieldRs1 w) (fieldRs2 w))
  | 0x1F => some (.stom (fieldRd w) (fieldRs1 w))
  | 0x20 => some (.sfromm (fieldRd w) (fieldRs1 w))
  | 0x21 => some (.smmul (fieldRd w) (fieldRs1 w) (fieldRs2 w))
  | 0x22 => some (.smsqr (fieldRd w) (fieldRs1 w))
  | 0x28 => some (.sel8 (fieldRd w) (fieldRs1 w) (fieldImm w))
  | 0x29 => some (.selnaf (fieldRd w) (fieldRs1 w) (fieldImm w))
  | _ => none

/-- The decoding algorithm of R130: a command, or the fault the word raises (R126, R127, R128). -/
def decode (w : Word32) : Except Cause Instr :=
  match commandOf w with
  | none => .error .illegalOpcode
  | some i =>
    if w &&& i.format.mbz ≠ 0 then .error .illegalField
    else if i.wf then .ok i
    else .error .illegalField

/-- The six fields of R121 laid out as one word, bit 31 first. -/
def packFields (op : BitVec 6) (rd rs1 rs2 rs3 : Reg) (imm : Imm) : Word32 :=
  op ++ (BitVec.ofFin (w := 4) rd ++ (BitVec.ofFin (w := 4) rs1 ++
    (BitVec.ofFin (w := 4) rs2 ++ (BitVec.ofFin (w := 4) rs3 ++ BitVec.ofFin (w := 10) imm))))

/-- The word of a command, from the bit patterns of R122; the fields a format does not use are 0. -/
def encode (i : Instr) : Word32 :=
  match i with
  | .nop => packFields i.opcode 0 0 0 0 0
  | .halt => packFields i.opcode 0 0 0 0 0
  | .mov rd rs1 => packFields i.opcode rd rs1 0 0 0
  | .ldc rd index => packFields i.opcode rd 0 0 0 index
  | .csel rd rs1 rs2 rs3 => packFields i.opcode rd rs1 rs2 rs3 0
  | .cswap ra rb rc => packFields i.opcode ra rb rc 0 0
  | .fadd rd rs1 rs2 => packFields i.opcode rd rs1 rs2 0 0
  | .fsub rd rs1 rs2 => packFields i.opcode rd rs1 rs2 0 0
  | .fneg rd rs1 => packFields i.opcode rd rs1 0 0 0
  | .fmul rd rs1 rs2 => packFields i.opcode rd rs1 rs2 0 0
  | .fsqr rd rs1 => packFields i.opcode rd rs1 0 0 0
  | .fsqr2 rd rs1 => packFields i.opcode rd rs1 0 0 0
  | .fpow2k rd rs1 k => packFields i.opcode rd rs1 0 0 k
  | .ffromb rd rs1 => packFields i.opcode rd rs1 0 0 0
  | .fchk rd rs1 => packFields i.opcode rd rs1 0 0 0
  | .sadd rd rs1 rs2 => packFields i.opcode rd rs1 rs2 0 0
  | .ssub rd rs1 rs2 => packFields i.opcode rd rs1 rs2 0 0
  | .sneg rd rs1 => packFields i.opcode rd rs1 0 0 0
  | .smul rd rs1 rs2 => packFields i.opcode rd rs1 rs2 0 0
  | .ssqr rd rs1 => packFields i.opcode rd rs1 0 0 0
  | .sred rd rs1 => packFields i.opcode rd rs1 0 0 0
  | .sredw rd rs1 rs2 => packFields i.opcode rd rs1 rs2 0 0
  | .stom rd rs1 => packFields i.opcode rd rs1 0 0 0
  | .sfromm rd rs1 => packFields i.opcode rd rs1 0 0 0
  | .smmul rd rs1 rs2 => packFields i.opcode rd rs1 rs2 0 0
  | .smsqr rd rs1 => packFields i.opcode rd rs1 0 0 0
  | .sel8 rd rs1 tbase => packFields i.opcode rd rs1 0 0 tbase
  | .selnaf rd rs1 tbase => packFields i.opcode rd rs1 0 0 tbase

/-- CLR vd (R141). -/
def Instr.clr (rd : Reg) : Instr := .ldc rd 0

/-- FASB vd, vs (R141): FieldElement as_bytes. -/
def Instr.fasb (rd rs1 : Reg) : Instr := .fchk rd rs1

/-- SASB vd, vs (R141): Scalar as_bytes. -/
def Instr.sasb (rd rs1 : Reg) : Instr := .sred rd rs1

/-- SFROMB vd, vs (R141): Scalar from_bytes, a decode with no reduction (41_scalar.md R214). -/
def Instr.sfromb (rd rs1 : Reg) : Instr := .mov rd rs1

/-- SELBP vd, vdigit, w (R141): window w of a basepoint table placed at TMEM entry 0. -/
def Instr.selbp (rd rs1 : Reg) (w : Fin 32) : Instr := .sel8 rd rs1 ⟨24 * w.val, by omega⟩

/-- The clock cycles of a command: LAT(op, k) (00_scope.md R11, 70_reset_and_hazards.md R350, R351). No step reads it. -/
def Instr.latency (i : Instr) : Nat :=
  match i with
  | .fpow2k _ _ k => Config.lat i.opcode k
  | _ => Config.lat i.opcode 0

/-- What the decoder reads from a command whose bits are `w`, bit 0 the least significant; every bit from `nbits` up is 0. -/
def decodeTableWord (nbits w : Nat) : Option Instr :=
  (decode (BitVec.ofNat 32 (w % 2 ^ nbits))).toOption

end Sys2Proof
end

