-- ==== Sys2Proof/Machine/State.lean ====
section
/-! DEFINITION. The state of the core (10_state.md), the turns of its agents, the answers of its host bus, and the state
after power-on reset (R51). INVENTORY.md lists every field with its rule. -/

namespace Sys2Proof.Machine

/-- Why a step of the model would stop. THERE IS NO SUCH REASON on this hardware: every fault of 60_exceptions.md is a
state of the core (BUSY = 0, FAULT = 1), which a step answers as its next state, and a host bus error is an answer on
the bus that changes no state (20_memory.md R87). So nothing raises this and it has no constructor. -/
inductive Fault where
  deriving DecidableEq, Repr

/-- Why the model would give a command no meaning. -/
inductive Refusal where
  /-- Raised by an arm of `exec` whose command has no meaning yet; no arm does so any more. Safe: the model stops. -/
  | notModelled (mnemonic : String)
  deriving DecidableEq, Repr

/-- The bytes of IMEM and TMEM that the host has written since the last power-on, by window offset, offsets strictly
rising (`Memory.wf`). An offset that is not listed has its power-on draw (log 3). -/
abbrev Memory := List Host.Cell

/-- What a host access does: read, or write 32 bits. -/
inductive AccessOp where
  | read
  | write (x : Word32)
  deriving DecidableEq, Repr

/-- One host access that selects this core's window: its width in bytes and its offset from CORE_BASE (20_memory.md R80
to R86). Only width 4 carries data the core looks at; any other width is refused. -/
structure Access where
  width : Nat
  off : BitVec 17
  op : AccessOp
  deriving DecidableEq, Repr

/-- What the window answers: the word read, a write taken (or dropped, R91), or a bus error (R87). -/
inductive BusReply where
  | data (x : Word32)
  | ack
  | busError
  deriving DecidableEq, Repr

/-- Which agent moves, and how (10_state.md R30, 20_memory.md R94, 70_reset_and_hazards.md R340). -/
inductive Turn where
  /-- The host makes one access. -/
  | host (a : Access)
  /-- The sequencer makes one step, or nothing while idle. -/
  | sequencer
  /-- The platform drives the power-on reset. -/
  | powerOn
  deriving DecidableEq, Repr

/-- The whole state. -/
structure State where
  /-- V0..V15 (R31). -/
  v : Vector Word 16
  /-- CP (R34). -/
  cp : BitVec 9
  /-- CTRL.IRQ_EN (R41). -/
  irqEn : Bool
  /-- CTRL.SINGLE_STEP (R41). -/
  singleStep : Bool
  /-- STATUS.BUSY (R42). -/
  busy : Bool
  /-- STATUS.DONE (R42). -/
  done : Bool
  /-- STATUS.FAULT (R42). -/
  fault : Bool
  /-- STATUS.ACCESS_ERR (R42). -/
  accessErr : Bool
  /-- FAULT_CAUSE.CAUSE (R44): none is the code 0. -/
  cause : Option Cause
  /-- FAULT_CAUSE.FCP (R44). -/
  fcp : BitVec 9
  /-- FAULT_CMD (R45). -/
  faultCmd : Word32
  /-- CMD_COUNT (R46). -/
  cmdCount : Word32
  /-- IMEM and TMEM (R36, R37), what is written of them. -/
  mem : Memory
  /-- The MODEL's own: how many power-on resets came after the first; it picks the draw (log 3). -/
  powerOns : Nat
  /-- The MODEL's own: the turns to come, oldest first; empty means the sequencer moves (log 1). -/
  agenda : List Turn
  /-- The MODEL's own: the answers the host got, newest first (log 2). -/
  replies : List BusReply
  deriving DecidableEq, Repr

/-- The power-on reset values of R51. IMEM and TMEM are unspecified: nothing is listed, each byte is its draw. -/
def State.reset : State where
  v := Vector.replicate 16 0
  cp := 0
  irqEn := false
  singleStep := false
  busy := false
  done := false
  fault := false
  accessErr := false
  cause := none
  fcp := 0
  faultCmd := 0
  cmdCount := 0
  mem := []
  powerOns := 0
  agenda := []
  replies := []

end Sys2Proof.Machine
end

