-- ==== Sys2Proof/Machine/Ops.lean ====
section
/-! DEFINITION. The named operations over memory and registers: reading and writing bytes, words and entries
(20_memory.md R83, R88 to R90), operand registers (00_scope.md R14), fetch (44_sequencing.md R281), fault entry
(60_exceptions.md R303), retirement (R284, R285), and the two resets (70_reset_and_hazards.md R341, R342). -/

namespace Sys2Proof.Machine

/-- The byte written at a window offset since power-on, if any. -/
def Memory.lookup : Memory → Nat → Option Byte
  | [], _ => none
  | (k, b) :: m, a => if k = a then some b else Memory.lookup m a

/-- Write one byte, keeping the offsets strictly rising. -/
def Memory.store : Memory → Nat → Byte → Memory
  | [], a, x => [(a, x)]
  | (k, b) :: m, a, x =>
    if a < k then (a, x) :: (k, b) :: m
    else if a = k then (a, x) :: m
    else (k, b) :: Memory.store m a x

/-- Write consecutive bytes, the first at the lowest offset. -/
def Memory.storeBytes : Memory → Nat → List Byte → Memory
  | m, _, [] => m
  | m, a, b :: bs => Memory.storeBytes (Memory.store m a b) (a + 1) bs

/-- The window offsets that hold IMEM or TMEM (20_memory.md R81). -/
abbrev Memory.inArray (a : Nat) : Prop :=
  (Config.imemBase ≤ a ∧ a < Config.imemBase + 4 * Config.imemWords) ∨
    (Config.tmemBase ≤ a ∧ a < Config.tmemBase + 32 * Config.tmemEntries)

/-- The canonical form of memory: offsets strictly rising, each of them in IMEM or TMEM. -/
abbrev Memory.wf (m : Memory) : Prop :=
  m.Pairwise (fun c d => c.1 < d.1) ∧ ∀ c ∈ m, Memory.inArray c.1

/-- What an offset reads as that nothing has written since power-on: the draw of that power-on (log 3,
93_implementation_defined.md U1). -/
def unwrittenByte (s : State) (a : Nat) : Byte := Config.powerOnByte s.powerOns a

/-- One byte of IMEM or TMEM, by window offset. -/
def State.readByte (s : State) (a : Nat) : Byte := (Memory.lookup s.mem a).getD (unwrittenByte s a)

/-- The bytes at `a`, `a + 1`, …, `n` of them. -/
def State.bytesAt (s : State) (a n : Nat) : List Byte := (List.range n).map fun k => s.readByte (a + k)

/-- The value of a little-endian byte string, Σ b[k]·2^(8k) (20_memory.md R88, R89). -/
def leValue : List Byte → Nat
  | [] => 0
  | b :: bs => b.toNat + 256 * leValue bs

/-- The four bytes of a word, byte k being bits [8k+7 : 8k] (20_memory.md R88). -/
def leBytes (x : Word32) : List Byte := (List.range 4).map fun k => x.extractLsb' (8 * k) 8

/-- The 32-bit word at a window offset of IMEM or TMEM. -/
def State.word32At (s : State) (a : Nat) : Word32 := BitVec.ofNat 32 (leValue (s.bytesAt a 4))

/-- Write the 32-bit word at a window offset of IMEM or TMEM. -/
def State.setWord32 (s : State) (a : Nat) (x : Word32) : State :=
  { s with mem := Memory.storeBytes s.mem a (leBytes x) }

/-- The window offset of IMEM word n (20_memory.md R83). -/
def imemOffset (n : Nat) : Nat := Config.imemBase + 4 * n

/-- The window offset of word j of TMEM entry e (20_memory.md R90). -/
def tmemOffset (e j : Nat) : Nat := Config.tmemBase + 32 * e + 4 * j

/-- IRead(n), command word n of IMEM (00_scope.md R14). -/
def State.iread (s : State) (n : Nat) : Word32 := s.word32At (imemOffset n)

/-- TRead(e), entry e of TMEM (00_scope.md R14, 20_memory.md R89, R90). -/
def State.tread (s : State) (e : Nat) : Word := BitVec.ofNat 256 (leValue (s.bytesAt (tmemOffset e 0) 32))

/-- V[i] (00_scope.md R14). -/
def State.reg (s : State) (i : Reg) : Word := s.v[i.val]

/-- V[i] <- x (00_scope.md R14). -/
def State.setReg (s : State) (i : Reg) (x : Word) : State := { s with v := s.v.set i.val x }

/-- Word j of a 256-bit value: bits [32j+31 : 32j] (20_memory.md R82). -/
def subword (x : Word) (j : Nat) : Word32 := x.extractLsb' (32 * j) 32

/-- Replace word j of a 256-bit value and leave the other 224 bits (20_memory.md R82). -/
def setSubword (x : Word) (j : Nat) (y : Word32) : Word :=
  (x &&& ~~~((0xFFFFFFFF : Word) <<< (32 * j))) ||| (y.setWidth 256 <<< (32 * j))

/-- The word a step fetches, or the fault CP_RANGE (44_sequencing.md R281). -/
def State.fetch (s : State) : Except Cause Word32 :=
  if 256 ≤ s.cp.toNat then .error .cpRange else .ok (s.iread s.cp.toNat)

/-- The word that FAULT_CMD records: the fetched command word, or 0 when CP is out of range, since then no word was
fetched (60_exceptions.md R302). No step writes IMEM, so it is IRead(CP) throughout the step. -/
def State.fetchedWord (s : State) : Word32 :=
  if 256 ≤ s.cp.toNat then 0 else s.iread s.cp.toNat

/-- Fault entry (60_exceptions.md R303), from the state before the step: the only exception of this hardware. Nothing else
changes, and there is no return from it but a reset (R307). -/
def State.raise (c : Cause) (s : State) : State :=
  { s with busy := false, fault := true, cause := some c, fcp := s.cp, faultCmd := s.fetchedWord }

/-- Retirement (44_sequencing.md R284) and the stop after it (R285), of HALT or of any other command. -/
def State.retire (halt : Bool) (s : State) : State :=
  { s with
    cmdCount := s.cmdCount + 1
    cp := s.cp + 1
    busy := s.busy && !(halt || s.singleStep)
    done := s.done || (halt || s.singleStep) }

/-- The end of a command other than HALT: it retires in the state its results are written in, or faults in the state
before the step with nothing written (44_sequencing.md R280). -/
def settle (s : State) (r : Except Cause State) : State :=
  match r with
  | .ok t => t.retire false
  | .error c => s.raise c

/-- Soft reset (70_reset_and_hazards.md R342): as power-on reset, but IMEM and TMEM keep their contents. The host's turns
to come and the answers it got are not the core's to clear. -/
def State.softReset (s : State) : State :=
  { State.reset with mem := s.mem, powerOns := s.powerOns, agenda := s.agenda, replies := s.replies }

/-- Power-on reset (70_reset_and_hazards.md R341): the reset values, and a new draw of IMEM and TMEM. -/
def State.powerOnReset (s : State) : State :=
  { State.reset with powerOns := s.powerOns + 1, agenda := s.agenda, replies := s.replies }

end Sys2Proof.Machine
end

