-- ==== Sys2Proof/Machine/Operands.lean ====
section
/-! DEFINITION. The operand forms of the commands: field and scalar operands (40_field.md R160, 41_scalar.md R200), choice
(R180), digit (43_tables.md R254); the `mod` of 00_scope.md R12 for integers of either sign; the mask blend of R181; and
the shapes the field and scalar commands share. -/

namespace Sys2Proof.Machine

/-- `x mod m` of 00_scope.md R12: the r in [0, m) with x − r divisible by m, also for negative x. -/
def modulo (x : Int) (m : Nat) : Nat := (x % (m : Int)).toNat

/-- A number as a 256-bit register value. -/
def toWord (n : Nat) : Word := BitVec.ofNat 256 n

/-- `fe(i)`: a field operand, or NONCANONICAL_FE (40_field.md R160). -/
def fe (i : Reg) (s : State) : Except Cause Nat :=
  if Config.p ≤ (s.reg i).toNat then .error .noncanonicalFe else .ok (s.reg i).toNat

/-- `sc(i)`: a scalar operand, or NONCANONICAL_SC (41_scalar.md R200). -/
def sc (i : Reg) (s : State) : Except Cause Nat :=
  if Config.L ≤ (s.reg i).toNat then .error .noncanonicalSc else .ok (s.reg i).toNat

/-- `choice(i)`: exactly 0 or 1, or BAD_CHOICE (40_field.md R180). -/
def choice (i : Reg) (s : State) : Except Cause Word :=
  if s.reg i ≠ 0 ∧ s.reg i ≠ 1 then .error .badChoice else .ok (s.reg i)

/-- `digit(i)`: the low byte read as two's complement; the other bits are ignored (43_tables.md R254). -/
def digit (i : Reg) (s : State) : Int := ((s.reg i).extractLsb' 0 8).toInt

/-- The mask-and-blend of CSEL (40_field.md R181): `a` when c = 0, `b` when c = 1. -/
def blend (a b c : Word) : Word :=
  let m := 0 - c
  (a &&& ~~~m) ||| (b &&& m)

/-- A command with one field operand and one result. -/
def fieldUnary (f : Nat → Nat) (rd rs1 : Reg) (s : State) : Except Cause State := do
  let a ← fe rs1 s
  return s.setReg rd (toWord (f a))

/-- A command with two field operands and one result. -/
def fieldBinary (f : Nat → Nat → Nat) (rd rs1 rs2 : Reg) (s : State) : Except Cause State := do
  let a ← fe rs1 s
  let b ← fe rs2 s
  return s.setReg rd (toWord (f a b))

/-- A command with one scalar operand and one result. -/
def scalarUnary (f : Nat → Nat) (rd rs1 : Reg) (s : State) : Except Cause State := do
  let a ← sc rs1 s
  return s.setReg rd (toWord (f a))

/-- A command with two scalar operands and one result. -/
def scalarBinary (f : Nat → Nat → Nat) (rd rs1 rs2 : Reg) (s : State) : Except Cause State := do
  let a ← sc rs1 s
  let b ← sc rs2 s
  return s.setReg rd (toWord (f a b))

/-- A command that accepts every value of its one operand. -/
def convert (f : Nat → Nat) (rd rs1 : Reg) (s : State) : Except Cause State :=
  .ok (s.setReg rd (toWord (f (s.reg rs1).toNat)))

end Sys2Proof.Machine
end

