-- ==== Sys2Proof/Machine/Conditional.lean ====
section
/-! DEFINITION. Conditional select and swap (40_field.md R180 to R182). -/

namespace Sys2Proof.Machine

/-- CSEL (R181): choice 0 selects the first operand, 1 the second (log 10). -/
def execCsel (rd rs1 rs2 rs3 : Reg) (s : State) : Host.Outcome State Fault Refusal :=
  .next (settle s (do
    let c ← choice rs3 s
    return s.setReg rd (blend (s.reg rs1) (s.reg rs2) c)))

/-- CSWAP (R182): both registers are written, A first. -/
def execCswap (ra rb rc : Reg) (s : State) : Host.Outcome State Fault Refusal :=
  .next (settle s (do
    let c ← choice rc s
    let x := s.reg ra
    let y := s.reg rb
    let t := (x ^^^ y) &&& (0 - c)
    return (s.setReg ra (x ^^^ t)).setReg rb (y ^^^ t)))

end Sys2Proof.Machine
end

