-- ==== Sys2Proof/Machine/Constants.lean ====
section
/-! DEFINITION. The constant ROM and LDC (42_constants.md R240 to R242). -/

namespace Sys2Proof.Machine

/-- R⁻¹ mod L, ROM(7) (R240). -/
def rInvModL : Nat := 0x064edb637937f48c1b0a73aa1c7fd1b5fd934be6d1d6d67ac7421b8f04c727e2

/-- 2^256 mod L, ROM(8) (R240). -/
def two256ModL : Nat := 0x0ffffffffffffffffffffffffffffffec6ef5bf4737dcf70d6ec31748d98951d

/-- ROM(k) (R240); the ROM has no entry above 8. -/
def rom : Nat → Option Nat
  | 0 => some 0
  | 1 => some 1
  | 2 => some 2
  | 3 => some 0x7fffffffffffffffffffffffffffffffffffffffffffffffffffffffffffffec
  | 4 => some 0x7fffffffffffffffffffffffffffffffffffffffffffffffffffffffffffffed
  | 5 => some 0x1000000000000000000000000000000014def9dea2f79cd65812631a5cf5d3ed
  | 6 => some 0x0fffffffffffffffffffffffffffffd656eb3c98b3bdf026334c2e60714df9ed
  | 7 => some rInvModL
  | 8 => some two256ModL
  | _ => none

/-- LDC (R241). An index above 8, which no decoder yields, is ILLEGAL_FIELD (30_encoding.md R124, log 11). -/
def execLdc (rd : Reg) (index : Imm) (s : State) : Host.Outcome State Fault Refusal :=
  .next (settle s
    (match rom index.val with
    | some k => .ok (s.setReg rd (toWord k))
    | none => .error .illegalField))

end Sys2Proof.Machine
end

