-- ==== Sys2Proof/Machine/Field.lean ====
section
/-! DEFINITION. The field unit (40_field.md R160 to R171): arithmetic modulo p, the plain product with no Montgomery factor
(90_conflicts.md C1). -/

namespace Sys2Proof.Machine

/-- `k` squarings modulo p, one after another (R167). -/
def squareTimes : Nat → Nat → Nat
  | 0, t => t
  | k + 1, t => squareTimes k (t * t % Config.p)

/-- FADD (R161). -/
def execFadd (rd rs1 rs2 : Reg) (s : State) : Host.Outcome State Fault Refusal :=
  .next (settle s (fieldBinary (fun a b => (a + b) % Config.p) rd rs1 rs2 s))

/-- FSUB (R162). -/
def execFsub (rd rs1 rs2 : Reg) (s : State) : Host.Outcome State Fault Refusal :=
  .next (settle s (fieldBinary (fun a b => modulo ((a : Int) - (b : Int)) Config.p) rd rs1 rs2 s))

/-- FNEG, the product with p − 1 (R163). -/
def execFneg (rd rs1 : Reg) (s : State) : Host.Outcome State Fault Refusal :=
  .next (settle s (fieldUnary (fun a => a * (Config.p - 1) % Config.p) rd rs1 s))

/-- FMUL (R164). -/
def execFmul (rd rs1 rs2 : Reg) (s : State) : Host.Outcome State Fault Refusal :=
  .next (settle s (fieldBinary (fun a b => a * b % Config.p) rd rs1 rs2 s))

/-- FSQR (R165). -/
def execFsqr (rd rs1 : Reg) (s : State) : Host.Outcome State Fault Refusal :=
  .next (settle s (fieldUnary (fun a => a * a % Config.p) rd rs1 s))

/-- FSQR2 (R166). -/
def execFsqr2 (rd rs1 : Reg) (s : State) : Host.Outcome State Fault Refusal :=
  .next (settle s (fieldUnary (fun a => 2 * a * a % Config.p) rd rs1 s))

/-- FPOW2K (R167). The count 0, which no decoder yields, is ILLEGAL_FIELD (30_encoding.md R124, log 11). -/
def execFpow2k (rd rs1 : Reg) (k : Imm) (s : State) : Host.Outcome State Fault Refusal :=
  .next (settle s
    (if WellFormed.squaringCount k then fieldUnary (squareTimes k.val) rd rs1 s else .error .illegalField))

/-- FFROMB (R168): bit 255 is discarded, then the rest is reduced (90_conflicts.md C4). -/
def execFfromb (rd rs1 : Reg) (s : State) : Host.Outcome State Fault Refusal :=
  .next (settle s (convert (fun b => b % 2 ^ 255 % Config.p) rd rs1 s))

/-- FCHK (R169). -/
def execFchk (rd rs1 : Reg) (s : State) : Host.Outcome State Fault Refusal :=
  .next (settle s (fieldUnary (fun a => a) rd rs1 s))

end Sys2Proof.Machine
end

