-- ==== Sys2Proof/Machine/Scalar.lean ====
section
/-! DEFINITION. The scalar unit (41_scalar.md R200 to R214): arithmetic modulo L, the reduction pipeline, and Montgomery form
for R = 2^261. No command knows which form a value is in (R212). -/

namespace Sys2Proof.Machine

/-- The pipeline of SREDW (R207): the high half times 2^256 mod L, the low half reduced, and their sum. -/
def reduceWide (lo hi : Nat) : Nat := (hi * two256ModL % Config.L + lo % Config.L) % Config.L

/-- SADD (R201). -/
def execSadd (rd rs1 rs2 : Reg) (s : State) : Host.Outcome State Fault Refusal :=
  .next (settle s (scalarBinary (fun a b => (a + b) % Config.L) rd rs1 rs2 s))

/-- SSUB (R202). -/
def execSsub (rd rs1 rs2 : Reg) (s : State) : Host.Outcome State Fault Refusal :=
  .next (settle s (scalarBinary (fun a b => modulo ((a : Int) - (b : Int)) Config.L) rd rs1 rs2 s))

/-- SNEG (R203). -/
def execSneg (rd rs1 : Reg) (s : State) : Host.Outcome State Fault Refusal :=
  .next (settle s (scalarUnary (fun a => modulo (-(a : Int)) Config.L) rd rs1 s))

/-- SMUL (R204). -/
def execSmul (rd rs1 rs2 : Reg) (s : State) : Host.Outcome State Fault Refusal :=
  .next (settle s (scalarBinary (fun a b => a * b % Config.L) rd rs1 rs2 s))

/-- SSQR (R205). -/
def execSsqr (rd rs1 : Reg) (s : State) : Host.Outcome State Fault Refusal :=
  .next (settle s (scalarUnary (fun a => a * a % Config.L) rd rs1 s))

/-- SRED (R206). -/
def execSred (rd rs1 : Reg) (s : State) : Host.Outcome State Fault Refusal :=
  .next (settle s (convert (fun a => a % Config.L) rd rs1 s))

/-- SREDW (R207): rs1 holds bytes 0..31, rs2 bytes 32..63. -/
def execSredw (rd rs1 rs2 : Reg) (s : State) : Host.Outcome State Fault Refusal :=
  .next (settle s (.ok (s.setReg rd (toWord (reduceWide (s.reg rs1).toNat (s.reg rs2).toNat)))))

/-- STOM (R208). -/
def execStom (rd rs1 : Reg) (s : State) : Host.Outcome State Fault Refusal :=
  .next (settle s (convert (fun a => a * Config.R % Config.L) rd rs1 s))

/-- SFROMM (R209). -/
def execSfromm (rd rs1 : Reg) (s : State) : Host.Outcome State Fault Refusal :=
  .next (settle s (convert (fun a => a * rInvModL % Config.L) rd rs1 s))

/-- SMMUL (R210). -/
def execSmmul (rd rs1 rs2 : Reg) (s : State) : Host.Outcome State Fault Refusal :=
  .next (settle s (scalarBinary (fun a b => a * b * rInvModL % Config.L) rd rs1 rs2 s))

/-- SMSQR (R211). -/
def execSmsqr (rd rs1 : Reg) (s : State) : Host.Outcome State Fault Refusal :=
  .next (settle s (scalarUnary (fun a => a * a * rInvModL % Config.L) rd rs1 s))

end Sys2Proof.Machine
end

