-- ==== Sys2Proof/Machine/Sequencing.lean ====
section
/-! DEFINITION. NOP, HALT and MOV (44_sequencing.md R286 to R288). -/

namespace Sys2Proof.Machine

/-- NOP (R286). -/
def execNop (s : State) : Host.Outcome State Fault Refusal := .next (settle s (.ok s))

/-- HALT (R287): retires and stops the run. -/
def execHalt (s : State) : Host.Outcome State Fault Refusal := .next (s.retire true)

/-- MOV (R288). -/
def execMov (rd rs1 : Reg) (s : State) : Host.Outcome State Fault Refusal :=
  .next (settle s (.ok (s.setReg rd (s.reg rs1))))

end Sys2Proof.Machine
end

