-- ==== Sys2Proof/Machine/Tables.lean ====
section
/-! DEFINITION. Table memory as point tables, and the constant-time selects SEL8 and SELNAF (43_tables.md R250 to R261). -/

namespace Sys2Proof.Machine

/-- An AffineNielsPoint (R250): y+x, y−x, xy·2d. -/
structure Point where
  ypx : Word
  ymx : Word
  xy2d : Word
  deriving DecidableEq, Repr

/-- The Niels form of the identity (R255, log 10). -/
def Point.identity : Point := ⟨1, 1, 0⟩

/-- Niels negation (R256, log 10). -/
def Point.neg (x : Point) : Point := ⟨x.ymx, x.ypx, toWord (modulo (-(x.xy2d.toNat : Int)) Config.p)⟩

/-- All three coordinates are canonical field elements. -/
def Point.canonical (x : Point) : Bool :=
  decide (x.ypx.toNat < Config.p) && decide (x.ymx.toNat < Config.p) && decide (x.xy2d.toNat < Config.p)

/-- The CSEL of each coordinate (R257). -/
def Point.blend (x y : Point) (m : Word) : Point :=
  ⟨Machine.blend x.ypx y.ypx m, Machine.blend x.ymx y.ymx m, Machine.blend x.xy2d y.xy2d m⟩

/-- The point whose first coordinate is TMEM entry b (R250). -/
def State.pointAt (s : State) (b : Nat) : Point := ⟨s.tread b, s.tread (b + 1), s.tread (b + 2)⟩

/-- The `n` points of a table placed at entry `tbase` (R251, R252). -/
def State.table (s : State) (tbase n : Nat) : List Point :=
  (List.range n).map fun j => s.pointAt (tbase + 3 * j)

/-- The entry at which LookupTable i of a basepoint table placed at `bbase` begins (R253). -/
def basepointWindow (bbase i : Nat) : Nat := bbase + 24 * i

/-- A truth value as the 0 or 1 of a blend. -/
def maskBit (b : Bool) : Word := if b then 1 else 0

/-- The blend loop of R257 and R258: every entry in order, the first numbered `j`, blended in where its number is `a`. -/
def scan (a : Nat) : Nat → List Point → Point → Point
  | _, [], x => x
  | j, e :: es, x => scan a (j + 1) es (x.blend e (maskBit (decide (a = j))))

/-- Write a point to V[rd], V[rd+1], V[rd+2] (R250). -/
def State.setPoint (s : State) (rd : Reg) (x : Point) : State :=
  ((s.setReg rd x.ypx).setReg (rd + 1) x.ymx).setReg (rd + 2) x.xy2d

/-- The part of SEL8 and SELNAF after the digit check: the check of every entry, the blend loop for the entry numbered `a`
(the first entry is number `first`), the negation by mask for a negative digit, and the writes (R257, R258). -/
def selectInto (rd : Reg) (d : Int) (a first : Nat) (tbl : List Point) (s : State) : Except Cause State :=
  if tbl.all Point.canonical then
    let x := scan a first tbl Point.identity
    .ok (s.setPoint rd (x.blend x.neg (maskBit (decide (d < 0)))))
  else .error .noncanonicalFe

/-- SEL8 (R257). Fields that break R124, which no decoder yields, are ILLEGAL_FIELD (log 11). -/
def execSel8 (rd rs1 : Reg) (tbase : Imm) (s : State) : Host.Outcome State Fault Refusal :=
  .next (settle s
    (if (WellFormed.tripleDest rd && WellFormed.lookupTable tbase) = false then .error .illegalField
    else if digit rs1 s < -8 ∨ 8 < digit rs1 s then .error .badDigit
    else selectInto rd (digit rs1 s) (digit rs1 s).natAbs 1 (s.table tbase.val 8) s))

/-- SELNAF (R258). Fields that break R124, which no decoder yields, are ILLEGAL_FIELD (log 11). -/
def execSelnaf (rd rs1 : Reg) (tbase : Imm) (s : State) : Host.Outcome State Fault Refusal :=
  .next (settle s
    (if (WellFormed.tripleDest rd && WellFormed.nafTable tbase) = false then .error .illegalField
    else if digit rs1 s % 2 = 0 ∨ digit rs1 s < -127 then .error .badDigit
    else selectInto rd (digit rs1 s) (((digit rs1 s).natAbs - 1) / 2) 0 (s.table tbase.val 64) s))

end Sys2Proof.Machine
end

