-- ==== Sys2Proof/Machine/Dispatch.lean ====
section
/-! DEFINITION. One arm per command: its meaning (30_encoding.md R125 names the rule of each). -/

namespace Sys2Proof.Machine

def exec (i : Instr) (s : State) : Host.Outcome State Fault Refusal :=
  match i with
  | .nop => Sys2Proof.Machine.execNop s
  | .halt => Sys2Proof.Machine.execHalt s
  | .mov rd rs1 => Sys2Proof.Machine.execMov rd rs1 s
  | .ldc rd index => Sys2Proof.Machine.execLdc rd index s
  | .csel rd rs1 rs2 rs3 => Sys2Proof.Machine.execCsel rd rs1 rs2 rs3 s
  | .cswap ra rb rc => Sys2Proof.Machine.execCswap ra rb rc s
  | .fadd rd rs1 rs2 => Sys2Proof.Machine.execFadd rd rs1 rs2 s
  | .fsub rd rs1 rs2 => Sys2Proof.Machine.execFsub rd rs1 rs2 s
  | .fneg rd rs1 => Sys2Proof.Machine.execFneg rd rs1 s
  | .fmul rd rs1 rs2 => Sys2Proof.Machine.execFmul rd rs1 rs2 s
  | .fsqr rd rs1 => Sys2Proof.Machine.execFsqr rd rs1 s
  | .fsqr2 rd rs1 => Sys2Proof.Machine.execFsqr2 rd rs1 s
  | .fpow2k rd rs1 k => Sys2Proof.Machine.execFpow2k rd rs1 k s
  | .ffromb rd rs1 => Sys2Proof.Machine.execFfromb rd rs1 s
  | .fchk rd rs1 => Sys2Proof.Machine.execFchk rd rs1 s
  | .sadd rd rs1 rs2 => Sys2Proof.Machine.execSadd rd rs1 rs2 s
  | .ssub rd rs1 rs2 => Sys2Proof.Machine.execSsub rd rs1 rs2 s
  | .sneg rd rs1 => Sys2Proof.Machine.execSneg rd rs1 s
  | .smul rd rs1 rs2 => Sys2Proof.Machine.execSmul rd rs1 rs2 s
  | .ssqr rd rs1 => Sys2Proof.Machine.execSsqr rd rs1 s
  | .sred rd rs1 => Sys2Proof.Machine.execSred rd rs1 s
  | .sredw rd rs1 rs2 => Sys2Proof.Machine.execSredw rd rs1 rs2 s
  | .stom rd rs1 => Sys2Proof.Machine.execStom rd rs1 s
  | .sfromm rd rs1 => Sys2Proof.Machine.execSfromm rd rs1 s
  | .smmul rd rs1 rs2 => Sys2Proof.Machine.execSmmul rd rs1 rs2 s
  | .smsqr rd rs1 => Sys2Proof.Machine.execSmsqr rd rs1 s
  | .sel8 rd rs1 tbase => Sys2Proof.Machine.execSel8 rd rs1 tbase s
  | .selnaf rd rs1 tbase => Sys2Proof.Machine.execSelnaf rd rs1 tbase s

end Sys2Proof.Machine
end

