-- ==== Sys2Proof/Machine/Sequencer.lean ====
section
/-! DEFINITION. The sequencer's step (44_sequencing.md R280 to R285): fetch, decode, execute. -/

namespace Sys2Proof.Machine

/-- One step of a running sequencer (R280): a fault of fetch (R281) or decode (R282) enters the fault state; a word that
decodes is executed. -/
def runCommand (s : State) : Host.Outcome State Fault Refusal :=
  match s.fetch with
  | .error c => .next (s.raise c)
  | .ok w =>
    match decode w with
    | .error c => .next (s.raise c)
    | .ok i => exec i s

/-- The sequencer's turn: a step exactly when BUSY = 1 (R280); otherwise it has none and nothing changes (log 14). -/
def sequencerTurn (s : State) : Host.Outcome State Fault Refusal :=
  if s.busy then runCommand s else .next s

end Sys2Proof.Machine
end

