-- ==== Sys2Proof/Machine/Flags.lean ====
section
/-! DEFINITION. The flags and the control and status registers as words (10_state.md R40 to R49). The core has no arithmetic
flags (R35); the only flags are the STATUS bits. -/

namespace Sys2Proof.Machine

/-- A bit at a place of a 32-bit register. -/
def bitAt (b : Bool) (n : Nat) : Word32 := (BitVec.ofBool b).setWidth 32 <<< n

/-- The cause codes of 60_exceptions.md R301; 0 is NONE. -/
def causeCode : Option Cause → BitVec 8
  | none => 0x00
  | some .illegalOpcode => 0x01
  | some .illegalField => 0x02
  | some .cpRange => 0x03
  | some .badChoice => 0x04
  | some .badDigit => 0x05
  | some .noncanonicalSc => 0x06
  | some .noncanonicalFe => 0x07

/-- The irq output, a level (10_state.md R49, 60_exceptions.md R311). -/
def State.irq (s : State) : Bool := s.irqEn && (s.done || s.fault)

/-- ID (R40). -/
def idWord : Word32 := 0x25510700

/-- CTRL as read (R41): START and SOFT_RESET read 0. -/
def State.ctrlWord (s : State) : Word32 := bitAt s.irqEn 2 ||| bitAt s.singleStep 3

/-- STATUS as read (R42). -/
def State.statusWord (s : State) : Word32 :=
  bitAt s.busy 0 ||| bitAt s.done 1 ||| bitAt s.fault 2 ||| bitAt s.accessErr 3 ||| bitAt s.irq 4

/-- CP as read (R43). -/
def State.cpWord (s : State) : Word32 := s.cp.setWidth 32

/-- FAULT_CAUSE as read (R44): CAUSE in [7:0], FCP in [24:16]. -/
def State.faultCauseWord (s : State) : Word32 :=
  (s.fcp.setWidth 32 <<< 16) ||| (causeCode s.cause).setWidth 32

/-- CFG (R47): NREG, log2 IMEM_WORDS, log2 TMEM_ENTRIES, BACKEND. -/
def cfgWord : Word32 := 0x000A0810 ||| (BitVec.ofNat 32 Config.backend.val <<< 24)

/-- A write of CTRL (R41, 44_sequencing.md R290): SOFT_RESET wins over everything else in the write; otherwise IRQ_EN and
SINGLE_STEP take effect, and START starts a run when the core is neither running nor faulted. -/
def State.writeCtrl (x : Word32) (s : State) : State :=
  if x.getLsbD 1 then s.softReset
  else
    let starts := x.getLsbD 0 && !s.busy && !s.fault
    { s with
      irqEn := x.getLsbD 2
      singleStep := x.getLsbD 3
      done := s.done && !starts
      busy := s.busy || starts }

/-- A write of STATUS (R42): a 1 clears DONE or ACCESS_ERR; every other bit is ignored. -/
def State.writeStatus (x : Word32) (s : State) : State :=
  { s with done := s.done && !x.getLsbD 1, accessErr := s.accessErr && !x.getLsbD 3 }

/-- A write of CP while idle (R43): bits [8:0]. -/
def State.writeCp (x : Word32) (s : State) : State := { s with cp := x.extractLsb' 0 9 }

end Sys2Proof.Machine
end

