-- ==== Sys2Proof/Machine/Window.lean ====
section
/-! DEFINITION. The host window (20_memory.md R80 to R92): the address map, what a read gives and what a write does, the
refusals while running, and bus errors. -/

namespace Sys2Proof.Machine

/-- The control and status registers (10_state.md R39). -/
inductive Csr where
  | id | ctrl | status | cp | faultCause | faultCmd | cmdCount | cfg
  deriving DecidableEq, Repr

/-- A word of the window (R81): a control register, word j of V[i], an IMEM word, word j of a TMEM entry. -/
inductive Region where
  | csr (c : Csr)
  | v (i : Reg) (j : Nat)
  | imem (n : Nat)
  | tmem (e j : Nat)
  deriving DecidableEq, Repr

/-- The control register at a word index of the window (10_state.md R39). -/
def csrAt : Nat → Option Csr
  | 0 => some .id
  | 1 => some .ctrl
  | 2 => some .status
  | 3 => some .cp
  | 4 => some .faultCause
  | 5 => some .faultCmd
  | 6 => some .cmdCount
  | 7 => some .cfg
  | _ => none

/-- The word at a byte offset of the window (R81 to R83, R90): none for a misaligned (R85) or unmapped (R86) offset. -/
def regionAt (o : Nat) : Option Region :=
  if o % 4 ≠ 0 then none
  else if o < 0x20 then (csrAt (o / 4)).map Region.csr
  else if Config.vBase ≤ o ∧ o < Config.vBase + 32 * 16 then
    some (.v (Fin.ofNat 16 ((o - Config.vBase) / 32)) ((o - Config.vBase) % 32 / 4))
  else if Config.imemBase ≤ o ∧ o < Config.imemBase + 4 * Config.imemWords then
    some (.imem ((o - Config.imemBase) / 4))
  else if Config.tmemBase ≤ o ∧ o < Config.tmemBase + 32 * Config.tmemEntries then
    some (.tmem ((o - Config.tmemBase) / 32) ((o - Config.tmemBase) % 32 / 4))
  else none

/-- What a read of a word gives (R82, R83, R90; 10_state.md R40 to R47). No read has a side effect (R92). -/
def Region.read (s : State) : Region → Word32
  | .csr .id => idWord
  | .csr .ctrl => s.ctrlWord
  | .csr .status => s.statusWord
  | .csr .cp => s.cpWord
  | .csr .faultCause => s.faultCauseWord
  | .csr .faultCmd => s.faultCmd
  | .csr .cmdCount => s.cmdCount
  | .csr .cfg => cfgWord
  | .v i j => subword (s.reg i) j
  | .imem n => s.word32At (imemOffset n)
  | .tmem e j => s.word32At (tmemOffset e j)

/-- What a write of a word does (R82, R83, R90; 10_state.md R41 to R43). A write to a read-only register is ignored
(10_state.md R48). -/
def Region.write (x : Word32) (s : State) : Region → State
  | .csr .id => s
  | .csr .ctrl => s.writeCtrl x
  | .csr .status => s.writeStatus x
  | .csr .cp => s.writeCp x
  | .csr .faultCause => s
  | .csr .faultCmd => s
  | .csr .cmdCount => s
  | .csr .cfg => s
  | .v i j => s.setReg i (setSubword (s.reg i) j x)
  | .imem n => s.setWord32 (imemOffset n) x
  | .tmem e j => s.setWord32 (tmemOffset e j) x

/-- The words whose access is refused while running (R91): V, IMEM and TMEM for reads and writes, CP for writes. -/
def Region.locked (op : AccessOp) : Region → Bool
  | .csr .cp => match op with
    | .read => false
    | .write _ => true
  | .csr _ => false
  | .v _ _ => true
  | .imem _ => true
  | .tmem _ _ => true

/-- An access refused while running (R91): nothing written, 0 read, ACCESS_ERR set. -/
def refuseAccess (op : AccessOp) (s : State) : State × BusReply :=
  match op with
  | .read => ({ s with accessErr := true }, .data 0)
  | .write _ => ({ s with accessErr := true }, .ack)

/-- One host access (R84 to R92): a bus error for a wrong width, a misaligned or an unmapped offset (first of all, log 8);
a refusal while running; else the access. -/
def busAccess (a : Access) (s : State) : State × BusReply :=
  if a.width ≠ 4 then (s, .busError)
  else match regionAt a.off.toNat with
    | none => (s, .busError)
    | some r =>
      if s.busy && r.locked a.op then refuseAccess a.op s
      else match a.op with
        | .read => (s, .data (r.read s))
        | .write x => (r.write x s, .ack)

/-- The host's turn: its access, with the answer recorded (log 2). -/
def hostTurn (a : Access) (s : State) : State :=
  { (busAccess a s).1 with replies := (busAccess a s).2 :: s.replies }

/-- The offset in the window of a host byte address, if the address selects this core (R80, R81). -/
def offsetOf (addr : Nat) : Option (BitVec 17) :=
  if Config.coreBase ≤ addr ∧ addr < Config.coreBase + Config.windowBytes then
    some (BitVec.ofNat 17 (addr - Config.coreBase))
  else none

/-- MemRead and MemWrite of 00_scope.md R14 (and accesses of other widths): none when the address is not this core's. -/
def memAccess (addr width : Nat) (op : AccessOp) (s : State) : Option (State × BusReply) :=
  (offsetOf addr).map fun off => busAccess ⟨width, off, op⟩ s

end Sys2Proof.Machine
end

