-- ==== Sys2Proof/Machine/Step.lean ====
section
/-! DEFINITION. One step of the whole machine: the next turn of the agenda, or the sequencer's when the agenda is empty
(10_state.md R30, 20_memory.md R94, log 1). -/

namespace Sys2Proof.Machine

/-- One step. -/
def step (s : State) : Host.Outcome State Fault Refusal :=
  match s.agenda with
  | [] => sequencerTurn s
  | .sequencer :: rest => sequencerTurn { s with agenda := rest }
  | .host a :: rest => .next (hostTurn a { s with agenda := rest })
  | .powerOn :: rest => .next (State.powerOnReset { s with agenda := rest })

/-- The state in which the very next step fetches and runs the given word (log 13): the word is in IMEM at CP (CP is 0 if it
was past the end), a run is in progress (BUSY = 1, DONE = 0, no fault recorded), and the sequencer's turn comes first. -/
def State.withFetchWord (s : State) (nbits w : Nat) : State :=
  let cp : BitVec 9 := if s.cp.toNat < 256 then s.cp else 0
  let running : State :=
    { s with
      cp := cp
      busy := true
      done := false
      fault := false
      cause := none
      fcp := 0
      faultCmd := 0
      agenda := match s.agenda with
        | [] => []
        | t :: rest => .sequencer :: t :: rest }
  running.setWord32 (imemOffset cp.toNat) (BitVec.ofNat 32 (w % 2 ^ nbits))

end Sys2Proof.Machine
end

