-- ==== Sys2Proof/Safety.lean ====
section
/-! DEFINITION. The terms claims are stated in: what a command leaves unchanged, what retiring and fault entry are, what one
turn may change, and the invariant of a sound state. -/

namespace Sys2Proof

/-- The destination registers of a command (30_encoding.md R123). -/
def Instr.dests : Instr → List Reg
  | .nop => []
  | .halt => []
  | .mov rd _ => [rd]
  | .ldc rd _ => [rd]
  | .csel rd _ _ _ => [rd]
  | .cswap ra rb _ => [ra, rb]
  | .fadd rd _ _ => [rd]
  | .fsub rd _ _ => [rd]
  | .fneg rd _ => [rd]
  | .fmul rd _ _ => [rd]
  | .fsqr rd _ => [rd]
  | .fsqr2 rd _ => [rd]
  | .fpow2k rd _ _ => [rd]
  | .ffromb rd _ => [rd]
  | .fchk rd _ => [rd]
  | .sadd rd _ _ => [rd]
  | .ssub rd _ _ => [rd]
  | .sneg rd _ => [rd]
  | .smul rd _ _ => [rd]
  | .ssqr rd _ => [rd]
  | .sred rd _ => [rd]
  | .sredw rd _ _ => [rd]
  | .stom rd _ => [rd]
  | .sfromm rd _ => [rd]
  | .smmul rd _ _ => [rd]
  | .smsqr rd _ => [rd]
  | .sel8 rd _ _ => [rd, rd + 1, rd + 2]
  | .selnaf rd _ _ => [rd, rd + 1, rd + 2]

/-- The operand registers a command reads, in the order of its pseudocode. With `Instr.tableReads` and `Instr.dests` it is the
access pattern of the constant-time contract: it depends on the command word alone (43_tables.md R259,
70_reset_and_hazards.md R350). -/
def Instr.sources : Instr → List Reg
  | .nop => []
  | .halt => []
  | .mov _ rs1 => [rs1]
  | .ldc _ _ => []
  | .csel _ rs1 rs2 rs3 => [rs1, rs2, rs3]
  | .cswap ra rb rc => [ra, rb, rc]
  | .fadd _ rs1 rs2 => [rs1, rs2]
  | .fsub _ rs1 rs2 => [rs1, rs2]
  | .fneg _ rs1 => [rs1]
  | .fmul _ rs1 rs2 => [rs1, rs2]
  | .fsqr _ rs1 => [rs1]
  | .fsqr2 _ rs1 => [rs1]
  | .fpow2k _ rs1 _ => [rs1]
  | .ffromb _ rs1 => [rs1]
  | .fchk _ rs1 => [rs1]
  | .sadd _ rs1 rs2 => [rs1, rs2]
  | .ssub _ rs1 rs2 => [rs1, rs2]
  | .sneg _ rs1 => [rs1]
  | .smul _ rs1 rs2 => [rs1, rs2]
  | .ssqr _ rs1 => [rs1]
  | .sred _ rs1 => [rs1]
  | .sredw _ rs1 rs2 => [rs1, rs2]
  | .stom _ rs1 => [rs1]
  | .sfromm _ rs1 => [rs1]
  | .smmul _ rs1 rs2 => [rs1, rs2]
  | .smsqr _ rs1 => [rs1]
  | .sel8 _ rs1 _ => [rs1]
  | .selnaf _ rs1 _ => [rs1]

/-- The TMEM entries a command reads, in the order of its pseudocode: all of its table, whatever the digit (43_tables.md
R259). -/
def Instr.tableReads : Instr → List Nat
  | .sel8 _ _ tbase => List.range' tbase.val 24
  | .selnaf _ _ tbase => List.range' tbase.val 192
  | .nop | .halt | .mov _ _ | .ldc _ _ | .csel _ _ _ _ | .cswap _ _ _ | .fadd _ _ _ | .fsub _ _ _ | .fneg _ _
  | .fmul _ _ _ | .fsqr _ _ | .fsqr2 _ _ | .fpow2k _ _ _ | .ffromb _ _ | .fchk _ _ | .sadd _ _ _ | .ssub _ _ _
  | .sneg _ _ | .smul _ _ _ | .ssqr _ _ | .sred _ _ | .sredw _ _ _ | .stom _ _ | .sfromm _ _ | .smmul _ _ _
  | .smsqr _ _ => []

end Sys2Proof

namespace Sys2Proof.Machine

/-- Everything but V0..V15, CP, CMD_COUNT, BUSY and DONE is as before: the frame of a command that retires. Memory is
compared byte by byte, at every offset. -/
structure SameBesides (s t : State) : Prop where
  irqEn : t.irqEn = s.irqEn
  singleStep : t.singleStep = s.singleStep
  fault : t.fault = s.fault
  accessErr : t.accessErr = s.accessErr
  cause : t.cause = s.cause
  fcp : t.fcp = s.fcp
  faultCmd : t.faultCmd = s.faultCmd
  bytes : ∀ a, t.readByte a = s.readByte a
  powerOns : t.powerOns = s.powerOns
  agenda : t.agenda = s.agenda
  replies : t.replies = s.replies

/-- `t` is `s` after a command retired that is not HALT (44_sequencing.md R284, R285), apart from V0..V15. -/
structure Retired (s t : State) : Prop where
  cp : t.cp = s.cp + 1
  cmdCount : t.cmdCount = s.cmdCount + 1
  stopped : s.singleStep = true → t.busy = false ∧ t.done = true
  running : s.singleStep = false → t.busy = s.busy ∧ t.done = s.done
  same : SameBesides s t

/-- `t` is `s` after the command `i` retired, HALT or any other: CP and CMD_COUNT up by one, the run stopped exactly by HALT or
SINGLE_STEP, no register but the destinations changed, and nothing else (44_sequencing.md R284, R285). -/
structure RetiredAs (i : Instr) (s t : State) : Prop where
  cp : t.cp = s.cp + 1
  cmdCount : t.cmdCount = s.cmdCount + 1
  stopped : i = .halt ∨ s.singleStep = true → t.busy = false ∧ t.done = true
  running : i ≠ .halt → s.singleStep = false → t.busy = s.busy ∧ t.done = s.done
  others : ∀ r, r ∉ i.dests → t.reg r = s.reg r
  same : SameBesides s t

/-- `t` is `s` after fault entry with the cause `c` (60_exceptions.md R303): the record is written, the run is over, and
nothing else changed. (FAULT_CMD of a command executed at CP ≥ 256, which no step does, is log 12.) -/
structure Faulted (c : Cause) (s t : State) : Prop where
  busy : t.busy = false
  fault : t.fault = true
  cause : t.cause = some c
  fcp : t.fcp = s.cp
  faultCmd : t.faultCmd = s.fetchedWord
  regs : ∀ r, t.reg r = s.reg r
  cp : t.cp = s.cp
  cmdCount : t.cmdCount = s.cmdCount
  done : t.done = s.done
  irqEn : t.irqEn = s.irqEn
  singleStep : t.singleStep = s.singleStep
  accessErr : t.accessErr = s.accessErr
  bytes : ∀ a, t.readByte a = s.readByte a
  powerOns : t.powerOns = s.powerOns
  agenda : t.agenda = s.agenda
  replies : t.replies = s.replies

/-- The command retires at `s`, writes `x` to V[rd], and changes no other register. -/
def RetiresWriting (i : Instr) (s : State) (rd : Reg) (x : Word) : Prop :=
  ∃ t, exec i s = .next t ∧ Retired s t ∧ ∀ r, t.reg r = if r = rd then x else s.reg r

/-- The command enters the fault state at `s` with the cause `c`. -/
def FaultsWith (i : Instr) (s : State) (c : Cause) : Prop :=
  ∃ t, exec i s = .next t ∧ Faulted c s t

/-- The value of V[i] as a number. -/
def State.num (s : State) (i : Reg) : Nat := (s.reg i).toNat

/-- The invariant of a sound state: memory is in its canonical form; a run is not faulted and not done; a fault is not
done; and the fault record is there exactly when FAULT is (10_state.md R42, R44, R45, 44_sequencing.md R291). -/
structure State.Inv (s : State) : Prop where
  memory : Memory.wf s.mem
  runNoFault : s.busy = true → s.fault = false
  runNotDone : s.busy = true → s.done = false
  faultNotDone : s.fault = true → s.done = false
  recordIffFault : s.fault = true ↔ s.cause ≠ none
  noRecord : s.fault = false → s.fcp = 0 ∧ s.faultCmd = 0

/-- A turn that resets the core: power-on, or an aligned 32-bit write of CTRL with SOFT_RESET set (70_reset_and_hazards.md
R340). -/
def Turn.resets : Turn → Bool
  | .powerOn => true
  | .host ⟨4, 0x004, .write x⟩ => x.getLsbD 1
  | .host _ => false
  | .sequencer => false

end Sys2Proof.Machine
end

