-- ==== Sys2Proof/Certificates/Slice0/Obligations.lean ====
section
/-! DEFINITION. The statements for the provers. Each docstring names the rule of spec/ it formalises. `RetiresWriting`,
`FaultsWith`, `Retired`, `Faulted` and `SameBesides` (Safety.lean) say the whole frame: every register, every bit of
the control registers, every byte of IMEM and TMEM. Every statement holds for every power-on draw and every value of
the model's own fields. -/

open Sys2Proof Sys2Proof.Machine

/-! ## Reset -/

/-- R341: the power-on reset, and the state a run of the model begins in. Of IMEM and TMEM nothing is said: their contents are
unspecified. -/
def Obligations.PowerOnResetValues : Prop :=
  ∀ s : State, ∀ t ∈ [s.powerOnReset, State.reset],
    (∀ r, t.reg r = 0) ∧ t.cp = 0 ∧ t.irqEn = false ∧ t.singleStep = false ∧
    t.statusWord = 0 ∧ t.busy = false ∧ t.done = false ∧ t.fault = false ∧ t.accessErr = false ∧
    t.faultCauseWord = 0 ∧ t.faultCmd = 0 ∧ t.cmdCount = 0 ∧ t.irq = false

/-- After each power-on every byte of IMEM and TMEM is a draw of its own, of which nothing is known. That the draw is an opaque
function of a counter of power-ons and the offset is the model's form of "unspecified" (93_implementation_defined.md U1,
log 3). -/
def Obligations.PowerOnDrawsArrays : Prop :=
  (∀ s : State, s.powerOnReset.powerOns = s.powerOns + 1 ∧
    ∀ a, s.powerOnReset.readByte a = Config.powerOnByte (s.powerOns + 1) a) ∧
  ∀ a, State.reset.readByte a = Config.powerOnByte 0 a

/-- R342: a CTRL write with SOFT_RESET, whatever its other bits and whether the core runs or not. The model's own fields stay
(logs 1, 2, 3). -/
def Obligations.SoftResetClearsAllButArrays : Prop :=
  ∀ (s : State) (x : Word32), x.getLsbD 1 = true →
    ∃ t, busAccess ⟨4, 0x004, .write x⟩ s = (t, .ack) ∧
      (∀ r, t.reg r = 0) ∧ t.cp = 0 ∧ t.irqEn = false ∧ t.singleStep = false ∧
      t.busy = false ∧ t.done = false ∧ t.fault = false ∧ t.accessErr = false ∧
      t.cause = none ∧ t.fcp = 0 ∧ t.faultCmd = 0 ∧ t.cmdCount = 0 ∧ t.irq = false ∧
      (∀ a, t.readByte a = s.readByte a) ∧
      t.powerOns = s.powerOns ∧ t.agenda = s.agenda ∧ t.replies = s.replies

/-! ## Encoding -/

/-- R121, R122, R125, R130: decoding the word of a well-formed command gives the command, every operand at every value. -/
def Obligations.DecodeOfEncode : Prop :=
  ∀ i : Instr, i.wf = true → decode (encode i) = .ok i

/-- R122, R130: each word that decodes is the one word of its command, and the command is well-formed. -/
def Obligations.EncodeOfDecode : Prop :=
  ∀ (w : Word32) (i : Instr), decode w = .ok i → i.wf = true ∧ encode i = w

/-- R126, R127 (and the value constraints of R124, R128): which words raise ILLEGAL_OPCODE, which ILLEGAL_FIELD, and which
decode, to the command their opcode names. -/
def Obligations.DecodeFaultsExactly : Prop :=
  ∀ w : Word32,
    let op := w.toNat / 2 ^ 26
    let reserved := op = 0x00 ∨ op = 0x07 ∨ (0x11 ≤ op ∧ op ≤ 0x17) ∨ (0x23 ≤ op ∧ op ≤ 0x27) ∨ (0x2A ≤ op ∧ op ≤ 0x3F)
    (reserved → decode w = .error .illegalOpcode) ∧
    (¬ reserved → ∃ i : Instr, commandOf w = some i ∧ i.opcode.toNat = op ∧
      (w &&& i.format.mbz ≠ 0 ∨ i.wf = false → decode w = .error .illegalField) ∧
      (w &&& i.format.mbz = 0 → i.wf = true → decode w = .ok i))

/-- R122, R125: some words written out from the bit patterns, one or more of each format. -/
def Obligations.SampleWordsDecode : Prop :=
  decode 0b000001_0000_0000_0000_0000_0000000000 = .ok .nop ∧
  decode 0b000010_0000_0000_0000_0000_0000000000 = .ok .halt ∧
  decode 0b000011_0001_0010_0000_0000_0000000000 = .ok (.mov 1 2) ∧
  decode 0b000100_1111_0000_0000_0000_0000001000 = .ok (.ldc 15 8) ∧
  decode 0b000101_0100_0001_0010_0000_0000000000 = .ok (.csel 4 1 2 0) ∧
  decode 0b000110_0001_0010_0011_0000_0000000000 = .ok (.cswap 1 2 3) ∧
  decode 0b001000_0010_0000_0001_0000_0000000000 = .ok (.fadd 2 0 1) ∧
  decode 0b001110_1000_0000_0000_0000_0000000101 = .ok (.fpow2k 8 0 5) ∧
  decode 0b100001_0100_0010_0011_0000_0000000000 = .ok (.smmul 4 2 3) ∧
  decode 0b101000_1101_0000_0000_0000_1111101000 = .ok (.sel8 13 0 1000) ∧
  decode 0b101001_1101_0001_0000_0000_1101000000 = .ok (.selnaf 13 1 832)

/-! ## The step -/

/-- R280, R282: a running core whose turn it is executes the command that the word at CP decodes to. -/
def Obligations.StepRunsDecodedCommand : Prop :=
  ∀ (s : State) (i : Instr), s.busy = true → s.cp.toNat < 256 → decode (s.iread s.cp.toNat) = .ok i →
    (s.agenda = [] → step s = exec i s) ∧
    (∀ rest, s.agenda = .sequencer :: rest → step s = exec i { s with agenda := rest })

/-- R281: the fetch is legal up to index 255; a command that retires at index 255 leaves CP = 256; at 256 and above the step
enters the fault state with CP_RANGE. That it is the sequencer's step which comes next is read off the agenda, the model's
own field (log 1): the agenda is empty, or lists the sequencer's turn first. -/
def Obligations.FetchPastEndFaults : Prop :=
  ∀ s : State,
    (s.cp.toNat < 256 → s.fetch = .ok (s.iread s.cp.toNat)) ∧
    (s.cp.toNat = 255 → s.fault = false → ∀ (i : Instr) (t : State), exec i s = .next t → t.fault = false →
      t.cp.toNat = 256) ∧
    (256 ≤ s.cp.toNat → s.busy = true →
      (s.agenda = [] → ∃ t, step s = .next t ∧ Faulted .cpRange s t ∧ t.faultCmd = 0) ∧
      (∀ rest, s.agenda = .sequencer :: rest →
        ∃ t, step s = .next t ∧ Faulted .cpRange { s with agenda := rest } t ∧ t.faultCmd = 0))

/-- R282, R302: a fetched word that does not decode enters the fault state with the decoder's cause, recording the word. -/
def Obligations.IllegalWordFaults : Prop :=
  ∀ (s : State) (c : Cause), s.busy = true → s.agenda = [] → s.cp.toNat < 256 →
    decode (s.iread s.cp.toNat) = .error c →
    (c = .illegalOpcode ∨ c = .illegalField) ∧
    ∃ t, step s = .next t ∧ Faulted c s t ∧ t.faultCmd = s.iread s.cp.toNat ∧ t.fcp = s.cp

/-- R280: an idle core's sequencer has no step: nothing changes (log 14: that the model's step then answers the same state
is the model's choice). -/
def Obligations.IdleSequencerDoesNothing : Prop :=
  ∀ s : State, s.busy = false →
    (s.agenda = [] → step s = .next s) ∧
    (∀ rest, s.agenda = .sequencer :: rest → step s = .next { s with agenda := rest })

/-- R30, R94: a turn of the host is one access, with its answer recorded, and a turn of the platform is a power-on reset (log 1,
log 2: agenda and replies are the model's). -/
def Obligations.OtherAgentsTakeTheirTurn : Prop :=
  ∀ (s : State) (rest : List Turn),
    (∀ a, s.agenda = .host a :: rest → ∃ t, step s = .next t ∧ t.agenda = rest ∧
      t.replies = (busAccess a { s with agenda := rest }).2 :: s.replies ∧
      { t with replies := s.replies } = (busAccess a { s with agenda := rest }).1) ∧
    (s.agenda = .powerOn :: rest → step s = .next (State.powerOnReset { s with agenda := rest }))

/-- R302, R303, with the codes of R301: what fault entry writes, for every cause. CP_RANGE is raised exactly at CP ≥ 256 (R281),
which is what the premise says; every fault a step raises meets it. -/
def Obligations.FaultEntryRecord : Prop :=
  ∀ (c : Cause) (s : State), (c = .cpRange ↔ 256 ≤ s.cp.toNat) →
    let code := match c with
      | .illegalOpcode => 1
      | .illegalField => 2
      | .cpRange => 3
      | .badChoice => 4
      | .badDigit => 5
      | .noncanonicalSc => 6
      | .noncanonicalFe => 7
    Faulted c s (s.raise c) ∧
    (s.raise c).faultCauseWord.toNat = s.cp.toNat * 65536 + code ∧
    (c = .cpRange → (s.raise c).faultCmd = 0) ∧
    (c ≠ .cpRange → (s.raise c).faultCmd = s.iread s.cp.toNat)

/-! ## NOP, HALT, MOV, LDC -/

/-- R286. -/
def Obligations.NopOnlyRetires : Prop :=
  encode .nop = 0x04000000 ∧
  (∀ w : Word32, w.toNat / 2 ^ 26 = 0x01 → w ≠ 0x04000000 → decode w = .error .illegalField) ∧
  ∀ s : State, ∃ t, exec .nop s = .next t ∧ Retired s t ∧ ∀ r, t.reg r = s.reg r

/-- R287. -/
def Obligations.HaltRetiresAndStops : Prop :=
  encode .halt = 0x08000000 ∧
  (∀ w : Word32, w.toNat / 2 ^ 26 = 0x02 → w ≠ 0x08000000 → decode w = .error .illegalField) ∧
  ∀ s : State, ∃ t, exec .halt s = .next t ∧ t.cp = s.cp + 1 ∧ t.cmdCount = s.cmdCount + 1 ∧
    t.busy = false ∧ t.done = true ∧ SameBesides s t ∧ ∀ r, t.reg r = s.reg r

/-- R288. -/
def Obligations.MovCopies : Prop :=
  ∀ (rd a : Reg) (s : State),
    (Instr.mov rd a).opcode = 0x03 ∧ (Instr.mov rd a).format = .r1 ∧
    RetiresWriting (.mov rd a) s rd (s.reg a)

/-- R241, with the values of R240 by their definitions; an index above 8 is ILLEGAL_FIELD at decode. -/
def Obligations.LdcLoadsRom : Prop :=
  ∀ (rd : Reg) (s : State),
    RetiresWriting (.ldc rd 0) s rd 0 ∧
    RetiresWriting (.ldc rd 1) s rd 1 ∧
    RetiresWriting (.ldc rd 2) s rd 2 ∧
    RetiresWriting (.ldc rd 3) s rd (BitVec.ofNat 256 (Config.p - 1)) ∧
    RetiresWriting (.ldc rd 4) s rd (BitVec.ofNat 256 Config.p) ∧
    RetiresWriting (.ldc rd 5) s rd (BitVec.ofNat 256 Config.L) ∧
    RetiresWriting (.ldc rd 6) s rd (BitVec.ofNat 256 (Config.R % Config.L)) ∧
    (∃ y, y < Config.L ∧ Config.R * y % Config.L = 1 ∧ RetiresWriting (.ldc rd 7) s rd (BitVec.ofNat 256 y)) ∧
    RetiresWriting (.ldc rd 8) s rd (BitVec.ofNat 256 (2 ^ 256 % Config.L)) ∧
    ∀ k : Imm, ((Instr.ldc rd k).opcode = 0x04 ∧ (Instr.ldc rd k).format = .k) ∧
      (8 < k.val → decode (encode (.ldc rd k)) = .error .illegalField)

/-! ## Conditional select and swap -/

/-- R180, R181. That choice 0 selects the first operand is "[from general knowledge, not in source]" in the spec itself
(log 10). -/
def Obligations.CselSelectsByChoice : Prop :=
  ∀ (rd a b c : Reg) (s : State),
    ((Instr.csel rd a b c).opcode = 0x05 ∧ (Instr.csel rd a b c).format = .r3) ∧
    (s.num c = 0 → RetiresWriting (.csel rd a b c) s rd (s.reg a)) ∧
    (s.num c = 1 → RetiresWriting (.csel rd a b c) s rd (s.reg b)) ∧
    (2 ≤ s.num c → FaultsWith (.csel rd a b c) s .badChoice)

/-- R180, R182. That choice 1 exchanges and 0 keeps is inherited from the polarity of R181, general knowledge in the spec itself
(93_implementation_defined.md G3, log 10). The two registers exchange when the choice is 1 and keep when it is 0, also when they are the same register or
one of them is the choice. -/
def Obligations.CswapSwapsByChoice : Prop :=
  ∀ (a b c : Reg) (s : State),
    ((Instr.cswap a b c).opcode = 0x06 ∧ (Instr.cswap a b c).format = .r2) ∧
    (s.num c = 0 → ∃ t, exec (.cswap a b c) s = .next t ∧ Retired s t ∧ ∀ r, t.reg r = s.reg r) ∧
    (s.num c = 1 → ∃ t, exec (.cswap a b c) s = .next t ∧ Retired s t ∧
      ∀ r, t.reg r = if r = a then s.reg b else if r = b then s.reg a else s.reg r) ∧
    (2 ≤ s.num c → FaultsWith (.cswap a b c) s .badChoice)

/-! ## The field unit -/

/-- R160, R161. -/
def Obligations.FieldAddResult : Prop :=
  ∀ (rd a b : Reg) (s : State),
    ((Instr.fadd rd a b).opcode = 0x08 ∧ (Instr.fadd rd a b).format = .r2) ∧
    (s.num a < Config.p → s.num b < Config.p →
      RetiresWriting (.fadd rd a b) s rd (BitVec.ofNat 256
        (if s.num a + s.num b < Config.p then s.num a + s.num b else s.num a + s.num b - Config.p))) ∧
    (Config.p ≤ s.num a ∨ Config.p ≤ s.num b → FaultsWith (.fadd rd a b) s .noncanonicalFe)

/-- R160, R162. -/
def Obligations.FieldSubResult : Prop :=
  ∀ (rd a b : Reg) (s : State),
    ((Instr.fsub rd a b).opcode = 0x09 ∧ (Instr.fsub rd a b).format = .r2) ∧
    (s.num a < Config.p → s.num b < Config.p →
      RetiresWriting (.fsub rd a b) s rd (BitVec.ofNat 256
        (if s.num b ≤ s.num a then s.num a - s.num b else s.num a + Config.p - s.num b))) ∧
    (Config.p ≤ s.num a ∨ Config.p ≤ s.num b → FaultsWith (.fsub rd a b) s .noncanonicalFe)

/-- R160, R163: the product with p − 1; it is the negation, which the spec derives. -/
def Obligations.FieldNegResult : Prop :=
  ∀ (rd a : Reg) (s : State),
    ((Instr.fneg rd a).opcode = 0x0A ∧ (Instr.fneg rd a).format = .r1) ∧
    (s.num a < Config.p →
      RetiresWriting (.fneg rd a) s rd (BitVec.ofNat 256 (s.num a * (Config.p - 1) % Config.p)) ∧
      RetiresWriting (.fneg rd a) s rd (BitVec.ofNat 256 (if s.num a = 0 then 0 else Config.p - s.num a))) ∧
    (Config.p ≤ s.num a → FaultsWith (.fneg rd a) s .noncanonicalFe)

/-- R160, R164: the plain product, with no Montgomery factor (90_conflicts.md C1). -/
def Obligations.FieldMulResult : Prop :=
  ∀ (rd a b : Reg) (s : State),
    ((Instr.fmul rd a b).opcode = 0x0B ∧ (Instr.fmul rd a b).format = .r2) ∧
    (s.num a < Config.p → s.num b < Config.p →
      RetiresWriting (.fmul rd a b) s rd (BitVec.ofNat 256 (s.num a * s.num b % Config.p))) ∧
    (Config.p ≤ s.num a ∨ Config.p ≤ s.num b → FaultsWith (.fmul rd a b) s .noncanonicalFe)

/-- R160, R165, R166. -/
def Obligations.FieldSquareResults : Prop :=
  ∀ (rd a : Reg) (s : State),
    ((Instr.fsqr rd a).opcode = 0x0C ∧ (Instr.fsqr rd a).format = .r1) ∧
    ((Instr.fsqr2 rd a).opcode = 0x0D ∧ (Instr.fsqr2 rd a).format = .r1) ∧
    (s.num a < Config.p →
      RetiresWriting (.fsqr rd a) s rd (BitVec.ofNat 256 (s.num a ^ 2 % Config.p)) ∧
      RetiresWriting (.fsqr2 rd a) s rd (BitVec.ofNat 256 (2 * s.num a ^ 2 % Config.p)) ∧
      exec (.fsqr rd a) s = exec (.fmul rd a a) s) ∧
    (Config.p ≤ s.num a →
      FaultsWith (.fsqr rd a) s .noncanonicalFe ∧ FaultsWith (.fsqr2 rd a) s .noncanonicalFe)

/-- R160, R167: k squarings raise to the power 2^k; k = 0 is ILLEGAL_FIELD at decode. -/
def Obligations.FieldPow2kResult : Prop :=
  ∀ (rd a : Reg) (k : Imm) (s : State),
    ((Instr.fpow2k rd a k).opcode = 0x0E ∧ (Instr.fpow2k rd a k).format = .i) ∧
    (1 ≤ k.val → s.num a < Config.p →
      RetiresWriting (.fpow2k rd a k) s rd (BitVec.ofNat 256 (s.num a ^ 2 ^ k.val % Config.p))) ∧
    (1 ≤ k.val → Config.p ≤ s.num a → FaultsWith (.fpow2k rd a k) s .noncanonicalFe) ∧
    (k.val = 0 → decode (encode (.fpow2k rd a k)) = .error .illegalField)

/-- R168: bit 255 is discarded, the rest reduced; always succeeds, and the result is canonical. -/
def Obligations.FieldFromBytesResult : Prop :=
  ∀ (rd a : Reg) (s : State),
    ((Instr.ffromb rd a).opcode = 0x0F ∧ (Instr.ffromb rd a).format = .r1) ∧
    RetiresWriting (.ffromb rd a) s rd
      (BitVec.ofNat 256 (((s.reg a).extractLsb' 0 255).toNat % Config.p)) ∧
    (∀ t, exec (.ffromb rd a) s = .next t → t.num rd < Config.p)

/-- R160, R169. -/
def Obligations.FieldCheckResult : Prop :=
  ∀ (rd a : Reg) (s : State),
    ((Instr.fchk rd a).opcode = 0x10 ∧ (Instr.fchk rd a).format = .r1) ∧
    (s.num a < Config.p → RetiresWriting (.fchk rd a) s rd (s.reg a)) ∧
    (Config.p ≤ s.num a → FaultsWith (.fchk rd a) s .noncanonicalFe)

/-! ## The scalar unit -/

/-- R200, R201. -/
def Obligations.ScalarAddResult : Prop :=
  ∀ (rd a b : Reg) (s : State),
    ((Instr.sadd rd a b).opcode = 0x18 ∧ (Instr.sadd rd a b).format = .r2) ∧
    (s.num a < Config.L → s.num b < Config.L →
      RetiresWriting (.sadd rd a b) s rd (BitVec.ofNat 256
        (if s.num a + s.num b < Config.L then s.num a + s.num b else s.num a + s.num b - Config.L))) ∧
    (Config.L ≤ s.num a ∨ Config.L ≤ s.num b → FaultsWith (.sadd rd a b) s .noncanonicalSc)

/-- R200, R202, R203. -/
def Obligations.ScalarSubNegResults : Prop :=
  ∀ (rd a b : Reg) (s : State),
    ((Instr.ssub rd a b).opcode = 0x19 ∧ (Instr.ssub rd a b).format = .r2) ∧
    ((Instr.sneg rd a).opcode = 0x1A ∧ (Instr.sneg rd a).format = .r1) ∧
    (s.num a < Config.L → s.num b < Config.L →
      RetiresWriting (.ssub rd a b) s rd (BitVec.ofNat 256
        (if s.num b ≤ s.num a then s.num a - s.num b else s.num a + Config.L - s.num b))) ∧
    (s.num a < Config.L →
      RetiresWriting (.sneg rd a) s rd (BitVec.ofNat 256 (if s.num a = 0 then 0 else Config.L - s.num a))) ∧
    (Config.L ≤ s.num a ∨ Config.L ≤ s.num b → FaultsWith (.ssub rd a b) s .noncanonicalSc) ∧
    (Config.L ≤ s.num a → FaultsWith (.sneg rd a) s .noncanonicalSc)

/-- R200, R204, R205. -/
def Obligations.ScalarMulSquareResults : Prop :=
  ∀ (rd a b : Reg) (s : State),
    ((Instr.smul rd a b).opcode = 0x1B ∧ (Instr.smul rd a b).format = .r2) ∧
    ((Instr.ssqr rd a).opcode = 0x1C ∧ (Instr.ssqr rd a).format = .r1) ∧
    (s.num a < Config.L → s.num b < Config.L →
      RetiresWriting (.smul rd a b) s rd (BitVec.ofNat 256 (s.num a * s.num b % Config.L))) ∧
    (s.num a < Config.L →
      RetiresWriting (.ssqr rd a) s rd (BitVec.ofNat 256 (s.num a ^ 2 % Config.L)) ∧
      exec (.ssqr rd a) s = exec (.smul rd a a) s) ∧
    (Config.L ≤ s.num a ∨ Config.L ≤ s.num b → FaultsWith (.smul rd a b) s .noncanonicalSc) ∧
    (Config.L ≤ s.num a → FaultsWith (.ssqr rd a) s .noncanonicalSc)

/-- R206: any 256-bit value; a canonical value is returned unchanged. -/
def Obligations.ScalarReduceResult : Prop :=
  ∀ (rd a : Reg) (s : State),
    ((Instr.sred rd a).opcode = 0x1D ∧ (Instr.sred rd a).format = .r1) ∧
    RetiresWriting (.sred rd a) s rd (BitVec.ofNat 256 (s.num a % Config.L)) ∧
    (s.num a < Config.L → RetiresWriting (.sred rd a) s rd (s.reg a))

/-- R207: the pipeline's result, which the spec derives to be the 512-bit value hi·2^256 + lo reduced modulo L. -/
def Obligations.ScalarReduceWideResult : Prop :=
  ∀ (rd lo hi : Reg) (s : State),
    ((Instr.sredw rd lo hi).opcode = 0x1E ∧ (Instr.sredw rd lo hi).format = .r2) ∧
    RetiresWriting (.sredw rd lo hi) s rd (BitVec.ofNat 256
      ((s.num hi * (2 ^ 256 % Config.L) % Config.L + s.num lo % Config.L) % Config.L)) ∧
    RetiresWriting (.sredw rd lo hi) s rd (BitVec.ofNat 256 ((s.num hi * 2 ^ 256 + s.num lo) % Config.L))

/-- R208, R209: conversion to and from Montgomery form, for any 256-bit value; y is the inverse of R modulo L. -/
def Obligations.MontgomeryConversionResults : Prop :=
  ∀ (rd a : Reg) (s : State),
    ((Instr.stom rd a).opcode = 0x1F ∧ (Instr.stom rd a).format = .r1) ∧
    ((Instr.sfromm rd a).opcode = 0x20 ∧ (Instr.sfromm rd a).format = .r1) ∧
    RetiresWriting (.stom rd a) s rd (BitVec.ofNat 256 (s.num a * Config.R % Config.L)) ∧
    ∀ y < Config.L, Config.R * y % Config.L = 1 →
      RetiresWriting (.sfromm rd a) s rd (BitVec.ofNat 256 (s.num a * y % Config.L))

/-- R200, R210, R211: Montgomery product and square; y is the inverse of R modulo L. -/
def Obligations.MontgomeryMulSquareResults : Prop :=
  ∀ (rd a b : Reg) (s : State),
    ((Instr.smmul rd a b).opcode = 0x21 ∧ (Instr.smmul rd a b).format = .r2) ∧
    ((Instr.smsqr rd a).opcode = 0x22 ∧ (Instr.smsqr rd a).format = .r1) ∧
    (∀ y < Config.L, Config.R * y % Config.L = 1 →
      (s.num a < Config.L → s.num b < Config.L →
        RetiresWriting (.smmul rd a b) s rd (BitVec.ofNat 256 (s.num a * s.num b * y % Config.L))) ∧
      (s.num a < Config.L →
        RetiresWriting (.smsqr rd a) s rd (BitVec.ofNat 256 (s.num a ^ 2 * y % Config.L)))) ∧
    (s.num a < Config.L → exec (.smsqr rd a) s = exec (.smmul rd a a) s) ∧
    (Config.L ≤ s.num a ∨ Config.L ≤ s.num b → FaultsWith (.smmul rd a b) s .noncanonicalSc) ∧
    (Config.L ≤ s.num a → FaultsWith (.smsqr rd a) s .noncanonicalSc)

/-! ## Table selects -/

/-- R254, R257: the digit is the low byte in two's complement, and `m` its magnitude. The identity of R255 and the negation of
R256 are "[from general knowledge, not in source]" in the spec itself (log 10). -/
def Obligations.Sel8SelectsPoint : Prop :=
  ∀ (rd a : Reg) (tbase : Imm) (s : State),
    let b := s.num a % 256
    let m := if b < 128 then b else 256 - b
    let e := tbase.val + 3 * (m - 1)
    let canonical := ∀ k < 24, (s.tread (tbase.val + k)).toNat < Config.p
    let selects := fun x y z : Word => ∃ t, exec (.sel8 rd a tbase) s = .next t ∧ Retired s t ∧
      ∀ r, t.reg r = if r.val = rd.val then x else if r.val = rd.val + 1 then y
        else if r.val = rd.val + 2 then z else s.reg r
    ((Instr.sel8 rd a tbase).opcode = 0x28 ∧ (Instr.sel8 rd a tbase).format = .t) ∧
    (13 < rd.val ∨ 1024 < tbase.val + 24 → decode (encode (.sel8 rd a tbase)) = .error .illegalField) ∧
    (rd.val ≤ 13 → tbase.val + 24 ≤ 1024 →
      (8 < m → FaultsWith (.sel8 rd a tbase) s .badDigit) ∧
      (m ≤ 8 → ¬ canonical → FaultsWith (.sel8 rd a tbase) s .noncanonicalFe) ∧
      (m = 0 → canonical → selects 1 1 0) ∧
      (1 ≤ m → m ≤ 8 → b < 128 → canonical → selects (s.tread e) (s.tread (e + 1)) (s.tread (e + 2))) ∧
      (1 ≤ m → m ≤ 8 → 128 ≤ b → canonical →
        selects (s.tread (e + 1)) (s.tread e)
          (BitVec.ofNat 256 ((Config.p - (s.tread (e + 2)).toNat) % Config.p))))

/-- R254, R258: odd digits of magnitude `m`; 0x80 is even. The negation of R256 is "[from general knowledge, not in source]" in
the spec itself (log 10). -/
def Obligations.SelnafSelectsPoint : Prop :=
  ∀ (rd a : Reg) (tbase : Imm) (s : State),
    let b := s.num a % 256
    let m := if b < 128 then b else 256 - b
    let e := tbase.val + 3 * ((m - 1) / 2)
    let canonical := ∀ k < 192, (s.tread (tbase.val + k)).toNat < Config.p
    let selects := fun x y z : Word => ∃ t, exec (.selnaf rd a tbase) s = .next t ∧ Retired s t ∧
      ∀ r, t.reg r = if r.val = rd.val then x else if r.val = rd.val + 1 then y
        else if r.val = rd.val + 2 then z else s.reg r
    ((Instr.selnaf rd a tbase).opcode = 0x29 ∧ (Instr.selnaf rd a tbase).format = .t) ∧
    (13 < rd.val ∨ 1024 < tbase.val + 192 → decode (encode (.selnaf rd a tbase)) = .error .illegalField) ∧
    (rd.val ≤ 13 → tbase.val + 192 ≤ 1024 →
      (b % 2 = 0 → FaultsWith (.selnaf rd a tbase) s .badDigit) ∧
      (b % 2 = 1 → ¬ canonical → FaultsWith (.selnaf rd a tbase) s .noncanonicalFe) ∧
      (b % 2 = 1 → b < 128 → canonical → selects (s.tread e) (s.tread (e + 1)) (s.tread (e + 2))) ∧
      (b % 2 = 1 → 128 ≤ b → canonical →
        selects (s.tread (e + 1)) (s.tread e)
          (BitVec.ofNat 256 ((Config.p - (s.tread (e + 2)).toNat) % Config.p))))

/-! ## All commands -/

/-- R284, R285, R303: every command, at every state, either retires (CP and CMD_COUNT up by one, the run stopped exactly by
HALT or SINGLE_STEP, no register written but its destinations) or enters the fault state. -/
def Obligations.EveryCommandRetiresOrFaults : Prop :=
  ∀ (i : Instr) (s : State), ∃ t, exec i s = .next t ∧
    ((t.cp = s.cp + 1 ∧ t.cmdCount = s.cmdCount + 1 ∧
      (i = .halt ∨ s.singleStep = true → t.busy = false ∧ t.done = true) ∧
      (i ≠ .halt → s.singleStep = false → t.busy = s.busy ∧ t.done = s.done) ∧
      SameBesides s t ∧ ∀ r, r ∉ i.dests → t.reg r = s.reg r) ∨
    ∃ c, Faulted c s t)

/-- A command whose fields break R124, which no decoder yields, is ILLEGAL_FIELD to `exec` too, at every state: the model's
choice (log 11). -/
def Obligations.IllegalFieldsFault : Prop :=
  ∀ (i : Instr) (s : State), i.wf = false →
    FaultsWith i s .illegalField ∧ decode (encode i) = .error .illegalField

/-- R259, R350, as far as a functional model can say them (that cycles and the order of accesses inside a step are left out, and
that the access pattern is these lists of locations, is log 6): which registers and table entries a command reads and writes
is fixed by the command word (`Instr.sources`, `Instr.tableReads`, `Instr.dests`), and nothing else decides whether it
faults, with which cause, and what it writes. Either both runs fault alike, or both retire, write the same values to the
destinations, and change nothing else but CP, CMD_COUNT, BUSY and DONE, as R284 and R285 say. -/
def Obligations.ResultsDependOnReadsOnly : Prop :=
  ∀ (i : Instr) (s s' t t' : State), (∀ r ∈ i.sources, s.reg r = s'.reg r) →
    (∀ e ∈ i.tableReads, s.tread e = s'.tread e) → exec i s = .next t → exec i s' = .next t' →
    (∃ c, Faulted c s t ∧ Faulted c s' t') ∨
    (RetiredAs i s t ∧ RetiredAs i s' t' ∧ ∀ r ∈ i.dests, t.reg r = t'.reg r)

/-- R171: a field command that retires leaves a value below p in its destination, a scalar command one below L. -/
def Obligations.ResultsAreCanonical : Prop :=
  ∀ (i : Instr) (s t : State), s.fault = false → exec i s = .next t → t.fault = false →
    (0x08 ≤ i.opcode.toNat → i.opcode.toNat ≤ 0x10 → ∀ r ∈ i.dests, t.num r < Config.p) ∧
    (0x18 ≤ i.opcode.toNat → i.opcode.toNat ≤ 0x22 → ∀ r ∈ i.dests, t.num r < Config.L)

/-- R170: the field laws, as runs of two commands from any state whose operand is canonical. -/
def Obligations.FieldLaws : Prop :=
  ∀ (s : State) (x y z : Reg), s.num x < Config.p → y ≠ x →
    (∃ t u, exec (.fneg y x) s = .next t ∧ exec (.fadd z x y) t = .next u ∧ u.reg z = 0) ∧
    (∃ t u, exec (.ldc y 1) s = .next t ∧ exec (.fmul z x y) t = .next u ∧ u.reg z = s.reg x) ∧
    exec (.fsqr z x) s = exec (.fmul z x x) s ∧
    exec (.fpow2k z x 1) s = exec (.fsqr z x) s ∧
    (∀ k : Imm, ∀ h : k.val + 1 < 1024, 1 ≤ k.val →
      ∃ t u w, exec (.fpow2k y x k) s = .next t ∧ exec (.fsqr z y) t = .next u ∧
        exec (.fpow2k z x ⟨k.val + 1, h⟩) s = .next w ∧ u.reg z = w.reg z)

/-- R213: the Montgomery round trip is reduction, and the Montgomery product converted back is the direct product. -/
def Obligations.MontgomeryLaws : Prop :=
  ∀ (s : State) (a b x y z : Reg),
    (∃ t u w, exec (.stom x a) s = .next t ∧ exec (.sfromm z x) t = .next u ∧
      exec (.sred z a) s = .next w ∧ u.reg z = w.reg z) ∧
    (s.num a < Config.L → s.num b < Config.L → x ≠ b → x ≠ y →
      ∃ t u v w d, exec (.stom x a) s = .next t ∧ exec (.stom y b) t = .next u ∧
        exec (.smmul z x y) u = .next v ∧ exec (.sfromm z z) v = .next w ∧
        exec (.smul z a b) s = .next d ∧ w.reg z = d.reg z)

/-! ## The host window -/

/-- R82, R92, R93: word j of V[i], read and written while idle. -/
def Obligations.OperandRegisterWords : Prop :=
  ∀ (s : State) (i : Reg) (j : Nat) (x : Word32), j < 8 → s.busy = false →
    busAccess ⟨4, BitVec.ofNat 17 (0x400 + 32 * i.val + 4 * j), .read⟩ s =
      (s, .data ((s.reg i).extractLsb' (32 * j) 32)) ∧
    ∃ t, busAccess ⟨4, BitVec.ofNat 17 (0x400 + 32 * i.val + 4 * j), .write x⟩ s = (t, .ack) ∧
      (t.reg i).extractLsb' (32 * j) 32 = x ∧
      (∀ k < 8, k ≠ j → (t.reg i).extractLsb' (32 * k) 32 = (s.reg i).extractLsb' (32 * k) 32) ∧
      (∀ r, r ≠ i → t.reg r = s.reg r) ∧
      t.cp = s.cp ∧ t.cmdCount = s.cmdCount ∧ t.busy = s.busy ∧ t.done = s.done ∧ SameBesides s t

/-- R83, R88: IMEM word n, read and written while idle; every byte outside the word is as before. -/
def Obligations.CommandMemoryWords : Prop :=
  ∀ (s : State) (n : Nat) (x : Word32), n < 256 → s.busy = false →
    busAccess ⟨4, BitVec.ofNat 17 (0x1000 + 4 * n), .read⟩ s = (s, .data (s.iread n)) ∧
    ∃ t, busAccess ⟨4, BitVec.ofNat 17 (0x1000 + 4 * n), .write x⟩ s = (t, .ack) ∧
      t.iread n = x ∧
      (∀ k < 4, t.readByte (0x1000 + 4 * n + k) = x.extractLsb' (8 * k) 8) ∧
      (∀ a, a < 0x1000 + 4 * n ∨ 0x1000 + 4 * n + 4 ≤ a → t.readByte a = s.readByte a) ∧
      { t with mem := s.mem } = s

/-- R90, R88: word j of TMEM entry e, read and written while idle; the rest of the entry and every other entry are as
before. -/
def Obligations.TableMemoryWords : Prop :=
  ∀ (s : State) (e j : Nat) (x : Word32), e < 1024 → j < 8 → s.busy = false →
    busAccess ⟨4, BitVec.ofNat 17 (0x10000 + 32 * e + 4 * j), .read⟩ s =
      (s, .data ((s.tread e).extractLsb' (32 * j) 32)) ∧
    ∃ t, busAccess ⟨4, BitVec.ofNat 17 (0x10000 + 32 * e + 4 * j), .write x⟩ s = (t, .ack) ∧
      (t.tread e).extractLsb' (32 * j) 32 = x ∧
      (∀ k < 8, k ≠ j → (t.tread e).extractLsb' (32 * k) 32 = (s.tread e).extractLsb' (32 * k) 32) ∧
      (∀ f, f ≠ e → t.tread f = s.tread f) ∧ (∀ n < 256, t.iread n = s.iread n) ∧
      { t with mem := s.mem } = s

/-- R84, R85, R86, R87 on the map of R81: which accesses of an idle core get a bus error, which changes nothing, and that no
other access does. -/
def Obligations.BusErrorsExactly : Prop :=
  ∀ (s : State) (a : Access), s.busy = false →
    let o := a.off.toNat
    let mapped := o < 0x20 ∨ (0x400 ≤ o ∧ o < 0x600) ∨ (0x1000 ≤ o ∧ o < 0x1400) ∨ (0x10000 ≤ o ∧ o < 0x18000)
    (a.width ≠ 4 ∨ o % 4 ≠ 0 ∨ ¬ mapped → busAccess a s = (s, .busError)) ∧
    (a.width = 4 → o % 4 = 0 → mapped → (busAccess a s).2 ≠ .busError)

/-- While running the same accesses get a bus error: that it comes before the refusal of R91, which an access of a wrong width
or a misaligned one inside V, IMEM or TMEM could also get, is the model's reading (log 8). -/
def Obligations.BusErrorsWhileRunning : Prop :=
  ∀ (s : State) (a : Access), s.busy = true →
    let o := a.off.toNat
    let mapped := o < 0x20 ∨ (0x400 ≤ o ∧ o < 0x600) ∨ (0x1000 ≤ o ∧ o < 0x1400) ∨ (0x10000 ≤ o ∧ o < 0x18000)
    (a.width ≠ 4 ∨ o % 4 ≠ 0 ∨ ¬ mapped → busAccess a s = (s, .busError)) ∧
    (a.width = 4 → o % 4 = 0 → mapped → (busAccess a s).2 ≠ .busError)

/-- R91: accesses to V, IMEM and TMEM, and writes of CP, while running. R91 says that the refusal is no bus error; that a write
so refused answers `.ack`, as a write taken does, is the model's choice (log 2). -/
def Obligations.RunningAccessRefused : Prop :=
  ∀ (s : State) (o : BitVec 17), s.busy = true → o.toNat % 4 = 0 →
    ((0x400 ≤ o.toNat ∧ o.toNat < 0x600) ∨ (0x1000 ≤ o.toNat ∧ o.toNat < 0x1400) ∨
      (0x10000 ≤ o.toNat ∧ o.toNat < 0x18000) →
      busAccess ⟨4, o, .read⟩ s = ({ s with accessErr := true }, .data 0) ∧
      ∀ x, busAccess ⟨4, o, .write x⟩ s = ({ s with accessErr := true }, .ack)) ∧
    (o.toNat = 0x00C → ∀ x, busAccess ⟨4, o, .write x⟩ s = ({ s with accessErr := true }, .ack))

/-- R91, R94: no host access but a soft reset changes what a run works on. -/
def Obligations.HostCannotDisturbRun : Prop :=
  ∀ (s : State) (a : Access), s.busy = true → Turn.resets (.host a) = false →
    (busAccess a s).1.busy = true ∧ (busAccess a s).1.cp = s.cp ∧ (busAccess a s).1.cmdCount = s.cmdCount ∧
    (∀ r, (busAccess a s).1.reg r = s.reg r) ∧ (∀ b, (busAccess a s).1.readByte b = s.readByte b)

/-- R39 to R49, R92: what a read of each control register gives, running or idle, with no side effect, and that writes to the
read-only ones are ignored. -/
def Obligations.ControlRegisterReads : Prop :=
  ∀ s : State,
    busAccess ⟨4, 0x000, .read⟩ s = (s, .data 0x25510700) ∧
    (∃ w : Word32, busAccess ⟨4, 0x004, .read⟩ s = (s, .data w) ∧
      w.toNat = s.irqEn.toNat * 4 + s.singleStep.toNat * 8) ∧
    (∃ w : Word32, busAccess ⟨4, 0x008, .read⟩ s = (s, .data w) ∧
      w.toNat = s.busy.toNat + s.done.toNat * 2 + s.fault.toNat * 4 + s.accessErr.toNat * 8 +
        (s.irqEn && (s.done || s.fault)).toNat * 16) ∧
    (∃ w : Word32, busAccess ⟨4, 0x00C, .read⟩ s = (s, .data w) ∧ w.toNat = s.cp.toNat) ∧
    (∃ w : Word32, busAccess ⟨4, 0x010, .read⟩ s = (s, .data w) ∧
      w.toNat = s.fcp.toNat * 65536 + (causeCode s.cause).toNat) ∧
    busAccess ⟨4, 0x014, .read⟩ s = (s, .data s.faultCmd) ∧
    busAccess ⟨4, 0x018, .read⟩ s = (s, .data s.cmdCount) ∧
    (∃ w : Word32, busAccess ⟨4, 0x01C, .read⟩ s = (s, .data w) ∧
      w.toNat = 0x000A0810 + Config.backend.val * 16777216) ∧
    ∀ o ∈ [(0x000 : BitVec 17), 0x010, 0x014, 0x018, 0x01C], ∀ x,
      busAccess ⟨4, o, .write x⟩ s = (s, .ack)

/-- R42: writing 1 clears DONE or ACCESS_ERR; every other bit of a STATUS write is ignored. -/
def Obligations.StatusWriteOneClears : Prop :=
  ∀ (s : State) (x : Word32), ∃ t, busAccess ⟨4, 0x008, .write x⟩ s = (t, .ack) ∧
    t.done = (if x.getLsbD 1 then false else s.done) ∧
    t.accessErr = (if x.getLsbD 3 then false else s.accessErr) ∧
    { t with done := s.done, accessErr := s.accessErr } = s

/-- R290: START acts exactly when the core is neither running nor faulted; the other bits of the write take effect. -/
def Obligations.StartBeginsRun : Prop :=
  ∀ (s : State) (x : Word32), x.getLsbD 1 = false →
    ∃ t, busAccess ⟨4, 0x004, .write x⟩ s = (t, .ack) ∧
      t.irqEn = x.getLsbD 2 ∧ t.singleStep = x.getLsbD 3 ∧
      (x.getLsbD 0 = true → s.busy = false → s.fault = false → t.done = false ∧ t.busy = true) ∧
      (x.getLsbD 0 = false ∨ s.busy = true ∨ s.fault = true → t.done = s.done ∧ t.busy = s.busy) ∧
      { t with irqEn := s.irqEn, singleStep := s.singleStep, done := s.done, busy := s.busy } = s

/-- R43: CP as read at any time, as written while idle, as refused while running, and after reset. That the refused write answers
`.ack`, as a write taken does, is the model's choice (log 2). -/
def Obligations.CommandPointerRegister : Prop :=
  ∀ s : State,
    (∃ w : Word32, busAccess ⟨4, 0x00C, .read⟩ s = (s, .data w) ∧ w.toNat = s.cp.toNat) ∧
    (s.busy = false → ∀ x : Word32, ∃ t, busAccess ⟨4, 0x00C, .write x⟩ s = (t, .ack) ∧
      t.cp.toNat = x.toNat % 512 ∧ { t with cp := s.cp } = s) ∧
    (s.busy = true → ∀ x : Word32, busAccess ⟨4, 0x00C, .write x⟩ s = ({ s with accessErr := true }, .ack)) ∧
    s.softReset.cp = 0 ∧ s.powerOnReset.cp = 0

/-- R311: irq is the level IRQ_EN and (DONE or FAULT), and STATUS bit 4 reads it. -/
def Obligations.IrqLevel : Prop :=
  ∀ s : State, (s.irq = true ↔ s.irqEn = true ∧ (s.done = true ∨ s.fault = true)) ∧
    s.statusWord.getLsbD 4 = s.irq

/-! ## The whole machine -/

/-- The reset state is sound (R51). -/
def Obligations.ResetIsSound : Prop := State.reset.Inv

/-- Every step of either agent keeps the invariant: memory canonical, never BUSY with FAULT or DONE, never FAULT with DONE, the
fault record present exactly with FAULT (R42, R44, R45, R291, R303). -/
def Obligations.StepKeepsSound : Prop :=
  ∀ s t : State, s.Inv → step s = .next t → t.Inv

/-- No step stops the model: every step answers a next state. For a step of the running sequencer and for a host access that is
R87, R303, R309 (faults and bus errors are no stops); that the model's step also answers at an idle core, where the spec gives
the sequencer no step (R280), is the model's choice (log 14). -/
def Obligations.StepAlwaysAnswers : Prop :=
  ∀ s : State, ∃ t, step s = .next t

/-- R291: a run left to itself ends within 257 steps, by a stop or a fault. -/
def Obligations.EveryRunEnds : Prop :=
  ∀ s : State, s.Inv → s.busy = true → s.agenda = [] →
    ∃ k ≤ 257, ∃ t : State, Host.Core.run Sys2Proof.core k s = .next t ∧ t.busy = false ∧
      (t.done = true ∧ t.fault = false ∨ t.fault = true ∧ t.done = false)

/-- R306, R307: no turn but a reset leaves the fault state or changes its record, and none starts a run in it. -/
def Obligations.FaultIsSticky : Prop :=
  ∀ s t : State, s.Inv → s.fault = true → (∀ u, s.agenda.head? = some u → u.resets = false) → step s = .next t →
    t.fault = true ∧ t.busy = false ∧ t.cause = s.cause ∧ t.fcp = s.fcp ∧ t.faultCmd = s.faultCmd

/-- R97, R98: while a run is in progress no turn but a power-on reset changes a byte of IMEM or TMEM. -/
def Obligations.ArraysConstantDuringRun : Prop :=
  ∀ s t : State, s.busy = true → s.agenda.head? ≠ some .powerOn → step s = .next t →
    ∀ a, t.readByte a = s.readByte a
end

