-- ==== Sys2Proof/Laws/State.lean ====
section
/-! SUPPORT. One lemma per field per update of State, true by rfl, and how each update is seen through the accessors. -/

namespace Sys2Proof.Machine

variable (s : State)

@[simp] theorem setReg_v (i : Reg) (x : Word) : (s.setReg i x).v = s.v.set i.val x := rfl
@[simp] theorem setReg_cp (i : Reg) (x : Word) : (s.setReg i x).cp = s.cp := rfl
@[simp] theorem setReg_irqEn (i : Reg) (x : Word) : (s.setReg i x).irqEn = s.irqEn := rfl
@[simp] theorem setReg_singleStep (i : Reg) (x : Word) : (s.setReg i x).singleStep = s.singleStep := rfl
@[simp] theorem setReg_busy (i : Reg) (x : Word) : (s.setReg i x).busy = s.busy := rfl
@[simp] theorem setReg_done (i : Reg) (x : Word) : (s.setReg i x).done = s.done := rfl
@[simp] theorem setReg_fault (i : Reg) (x : Word) : (s.setReg i x).fault = s.fault := rfl
@[simp] theorem setReg_accessErr (i : Reg) (x : Word) : (s.setReg i x).accessErr = s.accessErr := rfl
@[simp] theorem setReg_cause (i : Reg) (x : Word) : (s.setReg i x).cause = s.cause := rfl
@[simp] theorem setReg_fcp (i : Reg) (x : Word) : (s.setReg i x).fcp = s.fcp := rfl
@[simp] theorem setReg_faultCmd (i : Reg) (x : Word) : (s.setReg i x).faultCmd = s.faultCmd := rfl
@[simp] theorem setReg_cmdCount (i : Reg) (x : Word) : (s.setReg i x).cmdCount = s.cmdCount := rfl
@[simp] theorem setReg_mem (i : Reg) (x : Word) : (s.setReg i x).mem = s.mem := rfl
@[simp] theorem setReg_powerOns (i : Reg) (x : Word) : (s.setReg i x).powerOns = s.powerOns := rfl
@[simp] theorem setReg_agenda (i : Reg) (x : Word) : (s.setReg i x).agenda = s.agenda := rfl
@[simp] theorem setReg_replies (i : Reg) (x : Word) : (s.setReg i x).replies = s.replies := rfl

@[simp] theorem setWord32_v (a : Nat) (x : Word32) : (s.setWord32 a x).v = s.v := rfl
@[simp] theorem setWord32_cp (a : Nat) (x : Word32) : (s.setWord32 a x).cp = s.cp := rfl
@[simp] theorem setWord32_irqEn (a : Nat) (x : Word32) : (s.setWord32 a x).irqEn = s.irqEn := rfl
@[simp] theorem setWord32_singleStep (a : Nat) (x : Word32) : (s.setWord32 a x).singleStep = s.singleStep := rfl
@[simp] theorem setWord32_busy (a : Nat) (x : Word32) : (s.setWord32 a x).busy = s.busy := rfl
@[simp] theorem setWord32_done (a : Nat) (x : Word32) : (s.setWord32 a x).done = s.done := rfl
@[simp] theorem setWord32_fault (a : Nat) (x : Word32) : (s.setWord32 a x).fault = s.fault := rfl
@[simp] theorem setWord32_accessErr (a : Nat) (x : Word32) : (s.setWord32 a x).accessErr = s.accessErr := rfl
@[simp] theorem setWord32_cause (a : Nat) (x : Word32) : (s.setWord32 a x).cause = s.cause := rfl
@[simp] theorem setWord32_fcp (a : Nat) (x : Word32) : (s.setWord32 a x).fcp = s.fcp := rfl
@[simp] theorem setWord32_faultCmd (a : Nat) (x : Word32) : (s.setWord32 a x).faultCmd = s.faultCmd := rfl
@[simp] theorem setWord32_cmdCount (a : Nat) (x : Word32) : (s.setWord32 a x).cmdCount = s.cmdCount := rfl
@[simp] theorem setWord32_mem (a : Nat) (x : Word32) : (s.setWord32 a x).mem = Memory.storeBytes s.mem a (leBytes x) := rfl
@[simp] theorem setWord32_powerOns (a : Nat) (x : Word32) : (s.setWord32 a x).powerOns = s.powerOns := rfl
@[simp] theorem setWord32_agenda (a : Nat) (x : Word32) : (s.setWord32 a x).agenda = s.agenda := rfl
@[simp] theorem setWord32_replies (a : Nat) (x : Word32) : (s.setWord32 a x).replies = s.replies := rfl

@[simp] theorem retire_v (h : Bool) : (s.retire h).v = s.v := rfl
@[simp] theorem retire_cp (h : Bool) : (s.retire h).cp = s.cp + 1 := rfl
@[simp] theorem retire_irqEn (h : Bool) : (s.retire h).irqEn = s.irqEn := rfl
@[simp] theorem retire_singleStep (h : Bool) : (s.retire h).singleStep = s.singleStep := rfl
@[simp] theorem retire_busy (h : Bool) : (s.retire h).busy = (s.busy && !(h || s.singleStep)) := rfl
@[simp] theorem retire_done (h : Bool) : (s.retire h).done = (s.done || (h || s.singleStep)) := rfl
@[simp] theorem retire_fault (h : Bool) : (s.retire h).fault = s.fault := rfl
@[simp] theorem retire_accessErr (h : Bool) : (s.retire h).accessErr = s.accessErr := rfl
@[simp] theorem retire_cause (h : Bool) : (s.retire h).cause = s.cause := rfl
@[simp] theorem retire_fcp (h : Bool) : (s.retire h).fcp = s.fcp := rfl
@[simp] theorem retire_faultCmd (h : Bool) : (s.retire h).faultCmd = s.faultCmd := rfl
@[simp] theorem retire_cmdCount (h : Bool) : (s.retire h).cmdCount = s.cmdCount + 1 := rfl
@[simp] theorem retire_mem (h : Bool) : (s.retire h).mem = s.mem := rfl
@[simp] theorem retire_powerOns (h : Bool) : (s.retire h).powerOns = s.powerOns := rfl
@[simp] theorem retire_agenda (h : Bool) : (s.retire h).agenda = s.agenda := rfl
@[simp] theorem retire_replies (h : Bool) : (s.retire h).replies = s.replies := rfl

@[simp] theorem raise_v (c : Cause) : (s.raise c).v = s.v := rfl
@[simp] theorem raise_cp (c : Cause) : (s.raise c).cp = s.cp := rfl
@[simp] theorem raise_irqEn (c : Cause) : (s.raise c).irqEn = s.irqEn := rfl
@[simp] theorem raise_singleStep (c : Cause) : (s.raise c).singleStep = s.singleStep := rfl
@[simp] theorem raise_busy (c : Cause) : (s.raise c).busy = false := rfl
@[simp] theorem raise_done (c : Cause) : (s.raise c).done = s.done := rfl
@[simp] theorem raise_fault (c : Cause) : (s.raise c).fault = true := rfl
@[simp] theorem raise_accessErr (c : Cause) : (s.raise c).accessErr = s.accessErr := rfl
@[simp] theorem raise_cause (c : Cause) : (s.raise c).cause = some c := rfl
@[simp] theorem raise_fcp (c : Cause) : (s.raise c).fcp = s.cp := rfl
@[simp] theorem raise_faultCmd (c : Cause) : (s.raise c).faultCmd = s.fetchedWord := rfl
@[simp] theorem raise_cmdCount (c : Cause) : (s.raise c).cmdCount = s.cmdCount := rfl
@[simp] theorem raise_mem (c : Cause) : (s.raise c).mem = s.mem := rfl
@[simp] theorem raise_powerOns (c : Cause) : (s.raise c).powerOns = s.powerOns := rfl
@[simp] theorem raise_agenda (c : Cause) : (s.raise c).agenda = s.agenda := rfl
@[simp] theorem raise_replies (c : Cause) : (s.raise c).replies = s.replies := rfl

@[simp] theorem writeStatus_v (x : Word32) : (s.writeStatus x).v = s.v := rfl
@[simp] theorem writeStatus_cp (x : Word32) : (s.writeStatus x).cp = s.cp := rfl
@[simp] theorem writeStatus_irqEn (x : Word32) : (s.writeStatus x).irqEn = s.irqEn := rfl
@[simp] theorem writeStatus_singleStep (x : Word32) : (s.writeStatus x).singleStep = s.singleStep := rfl
@[simp] theorem writeStatus_busy (x : Word32) : (s.writeStatus x).busy = s.busy := rfl
@[simp] theorem writeStatus_done (x : Word32) : (s.writeStatus x).done = (s.done && !x.getLsbD 1) := rfl
@[simp] theorem writeStatus_fault (x : Word32) : (s.writeStatus x).fault = s.fault := rfl
@[simp] theorem writeStatus_accessErr (x : Word32) : (s.writeStatus x).accessErr = (s.accessErr && !x.getLsbD 3) := rfl
@[simp] theorem writeStatus_cause (x : Word32) : (s.writeStatus x).cause = s.cause := rfl
@[simp] theorem writeStatus_fcp (x : Word32) : (s.writeStatus x).fcp = s.fcp := rfl
@[simp] theorem writeStatus_faultCmd (x : Word32) : (s.writeStatus x).faultCmd = s.faultCmd := rfl
@[simp] theorem writeStatus_cmdCount (x : Word32) : (s.writeStatus x).cmdCount = s.cmdCount := rfl
@[simp] theorem writeStatus_mem (x : Word32) : (s.writeStatus x).mem = s.mem := rfl
@[simp] theorem writeStatus_powerOns (x : Word32) : (s.writeStatus x).powerOns = s.powerOns := rfl
@[simp] theorem writeStatus_agenda (x : Word32) : (s.writeStatus x).agenda = s.agenda := rfl
@[simp] theorem writeStatus_replies (x : Word32) : (s.writeStatus x).replies = s.replies := rfl

@[simp] theorem writeCp_v (x : Word32) : (s.writeCp x).v = s.v := rfl
@[simp] theorem writeCp_cp (x : Word32) : (s.writeCp x).cp = x.extractLsb' 0 9 := rfl
@[simp] theorem writeCp_irqEn (x : Word32) : (s.writeCp x).irqEn = s.irqEn := rfl
@[simp] theorem writeCp_singleStep (x : Word32) : (s.writeCp x).singleStep = s.singleStep := rfl
@[simp] theorem writeCp_busy (x : Word32) : (s.writeCp x).busy = s.busy := rfl
@[simp] theorem writeCp_done (x : Word32) : (s.writeCp x).done = s.done := rfl
@[simp] theorem writeCp_fault (x : Word32) : (s.writeCp x).fault = s.fault := rfl
@[simp] theorem writeCp_accessErr (x : Word32) : (s.writeCp x).accessErr = s.accessErr := rfl
@[simp] theorem writeCp_cause (x : Word32) : (s.writeCp x).cause = s.cause := rfl
@[simp] theorem writeCp_fcp (x : Word32) : (s.writeCp x).fcp = s.fcp := rfl
@[simp] theorem writeCp_faultCmd (x : Word32) : (s.writeCp x).faultCmd = s.faultCmd := rfl
@[simp] theorem writeCp_cmdCount (x : Word32) : (s.writeCp x).cmdCount = s.cmdCount := rfl
@[simp] theorem writeCp_mem (x : Word32) : (s.writeCp x).mem = s.mem := rfl
@[simp] theorem writeCp_powerOns (x : Word32) : (s.writeCp x).powerOns = s.powerOns := rfl
@[simp] theorem writeCp_agenda (x : Word32) : (s.writeCp x).agenda = s.agenda := rfl
@[simp] theorem writeCp_replies (x : Word32) : (s.writeCp x).replies = s.replies := rfl

@[simp] theorem softReset_v : s.softReset.v = State.reset.v := rfl
@[simp] theorem softReset_cp : s.softReset.cp = State.reset.cp := rfl
@[simp] theorem softReset_irqEn : s.softReset.irqEn = State.reset.irqEn := rfl
@[simp] theorem softReset_singleStep : s.softReset.singleStep = State.reset.singleStep := rfl
@[simp] theorem softReset_busy : s.softReset.busy = State.reset.busy := rfl
@[simp] theorem softReset_done : s.softReset.done = State.reset.done := rfl
@[simp] theorem softReset_fault : s.softReset.fault = State.reset.fault := rfl
@[simp] theorem softReset_accessErr : s.softReset.accessErr = State.reset.accessErr := rfl
@[simp] theorem softReset_cause : s.softReset.cause = State.reset.cause := rfl
@[simp] theorem softReset_fcp : s.softReset.fcp = State.reset.fcp := rfl
@[simp] theorem softReset_faultCmd : s.softReset.faultCmd = State.reset.faultCmd := rfl
@[simp] theorem softReset_cmdCount : s.softReset.cmdCount = State.reset.cmdCount := rfl
@[simp] theorem softReset_mem : s.softReset.mem = s.mem := rfl
@[simp] theorem softReset_powerOns : s.softReset.powerOns = s.powerOns := rfl
@[simp] theorem softReset_agenda : s.softReset.agenda = s.agenda := rfl
@[simp] theorem softReset_replies : s.softReset.replies = s.replies := rfl

@[simp] theorem powerOnReset_v : s.powerOnReset.v = State.reset.v := rfl
@[simp] theorem powerOnReset_cp : s.powerOnReset.cp = State.reset.cp := rfl
@[simp] theorem powerOnReset_irqEn : s.powerOnReset.irqEn = State.reset.irqEn := rfl
@[simp] theorem powerOnReset_singleStep : s.powerOnReset.singleStep = State.reset.singleStep := rfl
@[simp] theorem powerOnReset_busy : s.powerOnReset.busy = State.reset.busy := rfl
@[simp] theorem powerOnReset_done : s.powerOnReset.done = State.reset.done := rfl
@[simp] theorem powerOnReset_fault : s.powerOnReset.fault = State.reset.fault := rfl
@[simp] theorem powerOnReset_accessErr : s.powerOnReset.accessErr = State.reset.accessErr := rfl
@[simp] theorem powerOnReset_cause : s.powerOnReset.cause = State.reset.cause := rfl
@[simp] theorem powerOnReset_fcp : s.powerOnReset.fcp = State.reset.fcp := rfl
@[simp] theorem powerOnReset_faultCmd : s.powerOnReset.faultCmd = State.reset.faultCmd := rfl
@[simp] theorem powerOnReset_cmdCount : s.powerOnReset.cmdCount = State.reset.cmdCount := rfl
@[simp] theorem powerOnReset_mem : s.powerOnReset.mem = [] := rfl
@[simp] theorem powerOnReset_powerOns : s.powerOnReset.powerOns = s.powerOns + 1 := rfl
@[simp] theorem powerOnReset_agenda : s.powerOnReset.agenda = s.agenda := rfl
@[simp] theorem powerOnReset_replies : s.powerOnReset.replies = s.replies := rfl

@[simp] theorem setReg_readByte (i : Reg) (x : Word) (a : Nat) : (s.setReg i x).readByte a = s.readByte a := rfl
@[simp] theorem setWord32_reg (a : Nat) (x : Word32) (i : Reg) : (s.setWord32 a x).reg i = s.reg i := rfl
@[simp] theorem retire_reg (h : Bool) (i : Reg) : (s.retire h).reg i = s.reg i := rfl
@[simp] theorem retire_readByte (h : Bool) (a : Nat) : (s.retire h).readByte a = s.readByte a := rfl
@[simp] theorem raise_reg (c : Cause) (i : Reg) : (s.raise c).reg i = s.reg i := rfl
@[simp] theorem raise_readByte (c : Cause) (a : Nat) : (s.raise c).readByte a = s.readByte a := rfl
@[simp] theorem writeStatus_reg (x : Word32) (i : Reg) : (s.writeStatus x).reg i = s.reg i := rfl
@[simp] theorem writeStatus_readByte (x : Word32) (a : Nat) : (s.writeStatus x).readByte a = s.readByte a := rfl
@[simp] theorem writeCp_reg (x : Word32) (i : Reg) : (s.writeCp x).reg i = s.reg i := rfl
@[simp] theorem writeCp_readByte (x : Word32) (a : Nat) : (s.writeCp x).readByte a = s.readByte a := rfl
@[simp] theorem softReset_readByte (a : Nat) : s.softReset.readByte a = s.readByte a := rfl

theorem setReg_reg (i j : Reg) (x : Word) : (s.setReg i x).reg j = if j = i then x else s.reg j := by
  unfold State.reg State.setReg
  by_cases h : j = i
  · subst h; simp
  · have : i.val ≠ j.val := fun e => h (Fin.ext e.symm)
    simp [h, this]

@[simp] theorem setReg_reg_self (i : Reg) (x : Word) : (s.setReg i x).reg i = x := by simp [setReg_reg]

@[simp] theorem setReg_reg_of_ne (i j : Reg) (x : Word) (h : j ≠ i) : (s.setReg i x).reg j = s.reg j := by
  simp [setReg_reg, h]

@[simp] theorem softReset_reg (i : Reg) : s.softReset.reg i = 0 := by
  simp [State.reg, State.softReset, State.reset]

@[simp] theorem powerOnReset_reg (i : Reg) : s.powerOnReset.reg i = 0 := by
  simp [State.reg, State.powerOnReset, State.reset]

@[simp] theorem reset_reg (i : Reg) : State.reset.reg i = 0 := by
  simp [State.reg, State.reset]

/-- After a power-on reset every byte of IMEM and TMEM is that power-on's draw. -/
@[simp] theorem powerOnReset_readByte (a : Nat) :
    s.powerOnReset.readByte a = Config.powerOnByte (s.powerOns + 1) a := rfl

/-- A CTRL write with SOFT_RESET is a soft reset and nothing else (10_state.md R41). -/
theorem writeCtrl_of_reset (x : Word32) (h : x.getLsbD 1 = true) : s.writeCtrl x = s.softReset := by
  unfold State.writeCtrl
  rw [if_pos h]

/-- A CTRL write without SOFT_RESET (10_state.md R41, 44_sequencing.md R290). -/
theorem writeCtrl_of_no_reset (x : Word32) (h : x.getLsbD 1 = false) :
    s.writeCtrl x = { s with
      irqEn := x.getLsbD 2
      singleStep := x.getLsbD 3
      done := s.done && !(x.getLsbD 0 && !s.busy && !s.fault)
      busy := s.busy || (x.getLsbD 0 && !s.busy && !s.fault) } := by
  unfold State.writeCtrl
  rw [if_neg (by rw [h]; decide)]

/-- The bits of CTRL as a number (10_state.md R41). -/
theorem ctrlWord_toNat : s.ctrlWord.toNat = s.irqEn.toNat * 4 + s.singleStep.toNat * 8 := by
  unfold State.ctrlWord
  cases s.irqEn <;> cases s.singleStep <;> rfl

/-- The bits of STATUS as a number (10_state.md R42). -/
theorem statusWord_toNat : s.statusWord.toNat = s.busy.toNat + s.done.toNat * 2 + s.fault.toNat * 4 +
    s.accessErr.toNat * 8 + s.irq.toNat * 16 := by
  unfold State.statusWord
  cases s.busy <;> cases s.done <;> cases s.fault <;> cases s.accessErr <;> cases s.irq <;> rfl

/-- CP as a number (10_state.md R43). -/
theorem cpWord_toNat : s.cpWord.toNat = s.cp.toNat := by
  have := s.cp.isLt
  unfold State.cpWord
  rw [BitVec.toNat_setWidth, Nat.mod_eq_of_lt (by omega)]

/-- FAULT_CAUSE as a number: FCP above, CAUSE below (10_state.md R44). -/
theorem faultCauseWord_toNat : s.faultCauseWord.toNat = s.fcp.toNat * 65536 + (causeCode s.cause).toNat := by
  unfold State.faultCauseWord
  have h1 := s.fcp.isLt
  have h2 := (causeCode s.cause).isLt
  rw [BitVec.toNat_or, BitVec.toNat_shiftLeft, BitVec.toNat_setWidth, BitVec.toNat_setWidth,
    Nat.mod_eq_of_lt (a := s.fcp.toNat) (by omega), Nat.mod_eq_of_lt (a := (causeCode s.cause).toNat) (by omega),
    Nat.shiftLeft_eq, Nat.mod_eq_of_lt (by omega), ← Nat.shiftLeft_eq, ← Nat.shiftLeft_add_eq_or_of_lt (by omega),
    Nat.shiftLeft_eq]

end Sys2Proof.Machine
end

