-- ==== Sys2Proof/Laws/Memory.lean ====
section
/-! SUPPORT. The laws of memory: read after write, what a write leaves alone, the canonical form kept by every operation,
and words and entries as their bytes. -/

namespace Sys2Proof.Machine

/-! ## One byte -/

theorem lookup_store (m : Memory) (a b : Nat) (x : Byte) :
    Memory.lookup (Memory.store m a x) b = if b = a then some x else Memory.lookup m b := by
  induction m with
  | nil => simp [Memory.store, Memory.lookup, eq_comm]
  | cons c m ih =>
    obtain ⟨k, y⟩ := c
    unfold Memory.store
    split
    · simp [Memory.lookup, eq_comm]
    · split
      · subst_vars
        by_cases h : b = k <;> simp [Memory.lookup, h, eq_comm]
      · by_cases h : k = b
        · subst h
          simp only [Memory.lookup, if_true]
          rw [if_neg (by omega)]
        · simp [Memory.lookup, h, ih]

theorem mem_store (m : Memory) (a : Nat) (x : Byte) (c : Host.Cell) (h : c ∈ Memory.store m a x) :
    c.1 = a ∨ c ∈ m := by
  induction m with
  | nil => simp [Memory.store] at h; simp [h]
  | cons d m ih =>
    obtain ⟨k, y⟩ := d
    unfold Memory.store at h
    split at h
    · simp only [List.mem_cons] at h ⊢
      rcases h with h | h | h <;> simp [h]
    · split at h
      · simp only [List.mem_cons] at h ⊢
        rcases h with h | h <;> simp [h]
      · simp only [List.mem_cons] at h ⊢
        rcases h with h | h
        · simp [h]
        · rcases ih h with h | h <;> simp [h]

theorem store_sorted (m : Memory) (a : Nat) (x : Byte) (h : m.Pairwise (fun c d => c.1 < d.1)) :
    (Memory.store m a x).Pairwise (fun c d => c.1 < d.1) := by
  induction m with
  | nil => simp [Memory.store]
  | cons d m ih =>
    obtain ⟨k, y⟩ := d
    rw [List.pairwise_cons] at h
    unfold Memory.store
    split
    · rename_i hk
      refine List.pairwise_cons.2 ⟨fun c hc => ?_, List.pairwise_cons.2 h⟩
      rcases List.mem_cons.1 hc with rfl | hc
      · exact hk
      · exact Nat.lt_trans hk (h.1 c hc)
    · split
      · subst_vars
        exact List.pairwise_cons.2 ⟨h.1, h.2⟩
      · refine List.pairwise_cons.2 ⟨fun c hc => ?_, ih h.2⟩
        rcases mem_store m a x c hc with e | hc
        · show k < c.1
          omega
        · exact h.1 c hc

/-- A write inside IMEM or TMEM keeps the canonical form. -/
theorem store_wf (m : Memory) (a : Nat) (x : Byte) (h : Memory.wf m) (ha : Memory.inArray a) :
    Memory.wf (Memory.store m a x) := by
  refine ⟨store_sorted m a x h.1, fun c hc => ?_⟩
  rcases mem_store m a x c hc with e | hc
  · rw [e]; exact ha
  · exact h.2 c hc

theorem reset_memory_wf : Memory.wf State.reset.mem := ⟨List.Pairwise.nil, fun _ h => nomatch h⟩

/-- Two canonical memories that answer every lookup alike are the same list. -/
theorem memory_ext (m n : Memory) (hm : m.Pairwise (fun c d => c.1 < d.1)) (hn : n.Pairwise (fun c d => c.1 < d.1))
    (h : ∀ a, Memory.lookup m a = Memory.lookup n a) : m = n := by
  have none_below : ∀ (l : Memory) (a : Nat), (∀ c ∈ l, a < c.1) → Memory.lookup l a = none := by
    intro l a hl
    induction l with
    | nil => rfl
    | cons c l ih =>
      obtain ⟨k, y⟩ := c
      have hk := hl (k, y) (List.mem_cons_self ..)
      simp only [Memory.lookup]
      rw [if_neg (by simp at hk; omega)]
      exact ih fun d hd => hl d (List.mem_cons_of_mem _ hd)
  induction m generalizing n with
  | nil =>
    cases n with
    | nil => rfl
    | cons c n => simpa [Memory.lookup] using h c.1
  | cons c m ih =>
    obtain ⟨k, y⟩ := c
    cases n with
    | nil => simpa [Memory.lookup] using h k
    | cons d n =>
      obtain ⟨l, z⟩ := d
      rw [List.pairwise_cons] at hm hn
      have hk := h k
      have hl := h l
      simp only [Memory.lookup, if_true] at hk hl
      have e : k = l := by
        by_contra ne
        rw [if_neg (Ne.symm ne)] at hk
        rw [if_neg ne] at hl
        rcases Nat.lt_or_gt_of_ne ne with lt | lt
        · have := none_below n k fun c hc => Nat.lt_trans lt (hn.1 c hc)
          simp [this] at hk
        · have := none_below m l fun c hc => Nat.lt_trans lt (hm.1 c hc)
          simp [this] at hl
      subst e
      simp only [if_true, Option.some.injEq] at hk
      subst hk
      congr 1
      refine ih n hm.2 hn.2 fun a => ?_
      by_cases ha : k = a
      · subst ha
        rw [none_below m k hm.1, none_below n k hn.1]
      · have := h a
        simpa [Memory.lookup, ha] using this

/-! ## Several bytes -/

theorem lookup_storeBytes (m : Memory) (a b : Nat) (bs : List Byte) :
    Memory.lookup (Memory.storeBytes m a bs) b =
      if a ≤ b ∧ b < a + bs.length then bs[b - a]? else Memory.lookup m b := by
  induction bs generalizing m a with
  | nil => simp only [Memory.storeBytes, List.length_nil]; rw [if_neg (by omega)]
  | cons x bs ih =>
    simp only [Memory.storeBytes, ih, List.length_cons, lookup_store]
    by_cases h : a + 1 ≤ b ∧ b < a + 1 + bs.length
    · rw [if_pos h, if_pos (by omega), show b - a = (b - (a + 1)) + 1 by omega, List.getElem?_cons_succ]
    · rw [if_neg h]
      by_cases e : b = a
      · subst e; simp
      · rw [if_neg e, if_neg (by omega)]

theorem storeBytes_wf (m : Memory) (a : Nat) (bs : List Byte) (h : Memory.wf m)
    (ha : ∀ k < bs.length, Memory.inArray (a + k)) : Memory.wf (Memory.storeBytes m a bs) := by
  induction bs generalizing m a with
  | nil => exact h
  | cons x bs ih =>
    refine ih _ _ (store_wf m a x h (ha 0 (by simp))) fun k hk => ?_
    have := ha (k + 1) (by simpa using hk)
    rwa [show a + (k + 1) = a + 1 + k by omega] at this

@[simp] theorem leBytes_length (x : Word32) : (leBytes x).length = 4 := rfl

theorem leBytes_getElem? (x : Word32) (k : Nat) (h : k < 4) : (leBytes x)[k]? = some (x.extractLsb' (8 * k) 8) := by
  simp [leBytes, h]

/-- A byte after a word is written: one of the word's own bytes, or as before. -/
theorem setWord32_readByte (s : State) (a b : Nat) (x : Word32) :
    (s.setWord32 a x).readByte b =
      if a ≤ b ∧ b < a + 4 then x.extractLsb' (8 * (b - a)) 8 else s.readByte b := by
  have key := lookup_storeBytes s.mem a b (leBytes x)
  unfold State.readByte
  rw [setWord32_mem, key]
  by_cases h : a ≤ b ∧ b < a + 4
  · rw [if_pos (by simpa using h), if_pos h, leBytes_getElem? x _ (by omega)]; rfl
  · rw [if_neg (by simpa using h), if_neg h]; rfl

theorem setWord32_wf (s : State) (a : Nat) (x : Word32) (h : Memory.wf s.mem)
    (ha : ∀ k < 4, Memory.inArray (a + k)) : Memory.wf (s.setWord32 a x).mem :=
  storeBytes_wf _ _ _ h ha

/-! ## Little-endian values -/

theorem leValue_lt (bs : List Byte) : leValue bs < 256 ^ bs.length := by
  induction bs with
  | nil => simp [leValue]
  | cons b bs ih =>
    have := b.isLt
    simp only [leValue, List.length_cons, pow_succ]
    omega

theorem leValue_append (bs cs : List Byte) :
    leValue (bs ++ cs) = leValue bs + 256 ^ bs.length * leValue cs := by
  induction bs with
  | nil => simp [leValue]
  | cons b bs ih => simp only [List.cons_append, leValue, ih, List.length_cons, pow_succ]; ring

/-- A part of a byte string is the same part of its value. -/
theorem leValue_div_mod (bs : List Byte) (i n : Nat) (h : i + n ≤ bs.length) :
    leValue bs / 256 ^ i % 256 ^ n = leValue ((bs.drop i).take n) := by
  have h1 : leValue bs / 256 ^ i = leValue (bs.drop i) := by
    conv_lhs => rw [← List.take_append_drop i bs]
    rw [leValue_append, List.length_take, Nat.min_eq_left (by omega), Nat.add_mul_div_left _ _ (by positivity),
      Nat.div_eq_of_lt (by have := leValue_lt (bs.take i); rwa [List.length_take, Nat.min_eq_left (by omega)] at this),
      Nat.zero_add]
  rw [h1]
  conv_lhs => rw [← List.take_append_drop n (bs.drop i)]
  have hl : ((bs.drop i).take n).length = n := by simp; omega
  rw [leValue_append, hl, Nat.add_mul_mod_self_left, Nat.mod_eq_of_lt]
  have := leValue_lt ((bs.drop i).take n)
  rwa [hl] at this

@[simp] theorem bytesAt_length (s : State) (a n : Nat) : (s.bytesAt a n).length = n := by simp [State.bytesAt]

theorem bytesAt_drop_take (s : State) (a n i k : Nat) (h : i + k ≤ n) :
    ((s.bytesAt a n).drop i).take k = s.bytesAt (a + i) k := by
  apply List.ext_getElem
  · simp; omega
  · intro j h1 h2
    simp [State.bytesAt, Nat.add_assoc]

theorem bytesAt_congr (s t : State) (a n : Nat) (h : ∀ k < n, t.readByte (a + k) = s.readByte (a + k)) :
    t.bytesAt a n = s.bytesAt a n := by
  apply List.map_congr_left
  intro k hk
  exact h k (List.mem_range.1 hk)

theorem leValue_leBytes (x : Word32) : leValue (leBytes x) = x.toNat := by
  have hx := x.isLt
  simp [leValue, leBytes, List.range, List.range.loop, BitVec.extractLsb', Nat.shiftRight_eq_div_pow]
  omega

/-- A word written is the word read there. -/
theorem word32At_setWord32 (s : State) (a : Nat) (x : Word32) : (s.setWord32 a x).word32At a = x := by
  have : (s.setWord32 a x).bytesAt a 4 = leBytes x := by
    apply List.map_congr_left
    intro k hk
    rw [setWord32_readByte, if_pos (by have := List.mem_range.1 hk; omega), Nat.add_sub_cancel_left]
  unfold State.word32At
  rw [this, leValue_leBytes]
  simp

/-- A word that does not overlap the one written is as before. -/
theorem word32At_setWord32_of_disjoint (s : State) (a b : Nat) (x : Word32) (h : b + 4 ≤ a ∨ a + 4 ≤ b) :
    (s.setWord32 a x).word32At b = s.word32At b := by
  unfold State.word32At
  rw [bytesAt_congr s _ b 4 fun k hk => by rw [setWord32_readByte, if_neg (by omega)]]

/-- Word j of an entry is the word at its offset (20_memory.md R90). -/
theorem subword_tread (s : State) (e j : Nat) (h : j < 8) :
    subword (s.tread e) j = s.word32At (tmemOffset e j) := by
  apply BitVec.eq_of_toNat_eq
  have hlt := leValue_lt (s.bytesAt (tmemOffset e 0) 32)
  rw [bytesAt_length] at hlt
  have key := leValue_div_mod (s.bytesAt (tmemOffset e 0) 32) (4 * j) 4 (by simp; omega)
  rw [bytesAt_drop_take _ _ _ _ _ (by omega)] at key
  have hoff : tmemOffset e 0 + 4 * j = tmemOffset e j := by simp [tmemOffset]
  rw [hoff] at key
  simp only [subword, State.tread, State.word32At, BitVec.extractLsb'_toNat, BitVec.toNat_ofNat,
    Nat.shiftRight_eq_div_pow]
  rw [Nat.mod_eq_of_lt (show leValue (s.bytesAt (tmemOffset e 0) 32) < 2 ^ 256 from by
    calc _ < 256 ^ 32 := hlt
      _ = 2 ^ 256 := by norm_num)]
  have e1 : (256 : Nat) ^ (4 * j) = 2 ^ (32 * j) := by
    rw [show (256 : Nat) = 2 ^ 8 by norm_num, ← pow_mul]; ring_nf
  rw [e1, show (256 : Nat) ^ 4 = 2 ^ 32 by norm_num] at key
  rw [key]
  have h4 := leValue_lt (s.bytesAt (tmemOffset e j) 4)
  rw [bytesAt_length] at h4
  rw [Nat.mod_eq_of_lt (by calc _ < 256 ^ 4 := h4
    _ = 2 ^ 32 := by norm_num)]

/-- Two entries with the same bytes are equal. -/
theorem tread_congr (s t : State) (e : Nat)
    (h : ∀ k < 32, t.readByte (tmemOffset e 0 + k) = s.readByte (tmemOffset e 0 + k)) : t.tread e = s.tread e := by
  unfold State.tread
  rw [bytesAt_congr s t _ _ h]

theorem iread_congr (s t : State) (n : Nat)
    (h : ∀ k < 4, t.readByte (imemOffset n + k) = s.readByte (imemOffset n + k)) : t.iread n = s.iread n := by
  unfold State.iread State.word32At
  rw [bytesAt_congr s t _ _ h]

/-! ## Words of a 256-bit value -/

theorem subword_getLsbD (x : Word) (j k : Nat) : (subword x j).getLsbD k = (decide (k < 32) && x.getLsbD (32 * j + k)) := by
  simp [subword]

theorem setSubword_getLsbD (x : Word) (j : Nat) (y : Word32) (i : Nat) (hi : i < 256) :
    (setSubword x j y).getLsbD i =
      if 32 * j ≤ i ∧ i < 32 * j + 32 then y.getLsbD (i - 32 * j) else x.getLsbD i := by
  have hF : ∀ n, (0xFFFFFFFF : Word).getLsbD n = decide (n < 32) := by
    intro n
    rw [show (0xFFFFFFFF : Word) = (BitVec.allOnes 32).setWidth 256 by decide]
    simp only [BitVec.getLsbD_setWidth, BitVec.getLsbD_allOnes]
    by_cases h : n < 32 <;> simp [h]; omega
  simp only [setSubword, BitVec.getLsbD_or, BitVec.getLsbD_and, BitVec.getLsbD_not, BitVec.getLsbD_shiftLeft, hF,
    BitVec.getLsbD_setWidth]
  by_cases h1 : i < 32 * j
  · simp [h1, hi, show ¬ (32 * j ≤ i) by omega]
  · by_cases h2 : i - 32 * j < 32
    · simp [h1, h2, hi, show 32 * j ≤ i by omega, show i < 32 * j + 32 by omega, show i - 32 * j < 256 by omega]
    · simp [h1, h2, hi, show ¬ i < 32 * j + 32 by omega]
      intro _
      simp [BitVec.getLsbD_of_ge y (i - 32 * j) (by omega)]

theorem subword_setSubword (x : Word) (j : Nat) (y : Word32) (h : j < 8) : subword (setSubword x j y) j = y := by
  apply BitVec.eq_of_getLsbD_eq
  intro i hi
  rw [subword_getLsbD, setSubword_getLsbD x j y _ (by omega), if_pos (by omega)]
  simp [hi]

theorem subword_setSubword_of_ne (x : Word) (j k : Nat) (y : Word32) (hk : k < 8) (ne : k ≠ j) :
    subword (setSubword x j y) k = subword x k := by
  apply BitVec.eq_of_getLsbD_eq
  intro i hi
  rw [subword_getLsbD, subword_getLsbD, setSubword_getLsbD x j y _ (by omega), if_neg (by omega)]

end Sys2Proof.Machine
end

