-- ==== Sys2Proof/Laws/Window.lean ====
section
/-! SUPPORT. The host window: which word stands at which offset, and what one access can do. -/

namespace Sys2Proof.Machine

/-! ## The address map (20_memory.md R81) -/

theorem regionAt_v (i : Reg) (j : Nat) (h : j < 8) : regionAt (0x400 + 32 * i.val + 4 * j) = some (.v i j) := by
  have hi := i.isLt
  unfold regionAt
  simp only [Config.vBase]
  rw [if_neg (by omega), if_neg (by omega), if_pos (by omega)]
  congr 2
  · apply Fin.ext
    simp only [Fin.ofNat]
    omega
  · omega

theorem regionAt_imem (n : Nat) (h : n < 256) : regionAt (0x1000 + 4 * n) = some (.imem n) := by
  unfold regionAt
  simp only [Config.vBase, Config.imemBase, Config.imemWords]
  rw [if_neg (by omega), if_neg (by omega), if_neg (by omega), if_pos (by omega)]
  congr 2
  omega

theorem regionAt_tmem (e j : Nat) (he : e < 1024) (hj : j < 8) :
    regionAt (0x10000 + 32 * e + 4 * j) = some (.tmem e j) := by
  unfold regionAt
  simp only [Config.vBase, Config.imemBase, Config.imemWords, Config.tmemBase, Config.tmemEntries]
  rw [if_neg (by omega), if_neg (by omega), if_neg (by omega), if_neg (by omega), if_pos (by omega)]
  congr 2 <;> omega

theorem offset_toNat (o : Nat) (h : o < 0x20000) : (BitVec.ofNat 17 o).toNat = o := by
  simp only [BitVec.toNat_ofNat]
  omega

theorem csrAt_some (n : Nat) (h : n < 8) : ∃ c, csrAt n = some c := by
  interval_cases n <;> exact ⟨_, rfl⟩

/-- Every word the map answers is one that exists: its indexes are in range. -/
theorem regionAt_range {o : Nat} {r : Region} (h : regionAt o = some r) :
    (∃ c, r = .csr c) ∨ (∃ i, ∃ j < 8, r = .v i j) ∨ (∃ n < 256, r = .imem n) ∨
      (∃ e < 1024, ∃ j < 8, r = .tmem e j) := by
  unfold regionAt at h
  simp only [Config.vBase, Config.imemBase, Config.imemWords, Config.tmemBase, Config.tmemEntries] at h
  split at h
  · cases h
  · split at h
    · obtain ⟨c, -, rfl⟩ := Option.map_eq_some_iff.1 h
      exact .inl ⟨c, rfl⟩
    · split at h
      · cases h; exact .inr (.inl ⟨_, _, by omega, rfl⟩)
      · split at h
        · cases h; exact .inr (.inr (.inl ⟨_, by omega, rfl⟩))
        · split at h
          · cases h; exact .inr (.inr (.inr ⟨_, by omega, _, by omega, rfl⟩))
          · cases h

/-! ## One access -/

variable (s : State)

/-- An access that finds a word and is not refused. -/
theorem busAccess_open {o : BitVec 17} {r : Region} (op : AccessOp) (h : regionAt o.toNat = some r)
    (hl : (s.busy && r.locked op) = false) :
    busAccess ⟨4, o, op⟩ s = match op with
      | .read => (s, .data (r.read s))
      | .write x => (r.write x s, .ack) := by
  cases op <;> simp only [busAccess, h, hl] <;> rfl

/-- An access that finds a word and is refused while running. -/
theorem busAccess_refused {o : BitVec 17} {r : Region} (op : AccessOp) (h : regionAt o.toNat = some r)
    (hl : (s.busy && r.locked op) = true) : busAccess ⟨4, o, op⟩ s = refuseAccess op s := by
  simp only [busAccess, h, hl]
  rfl

/-- A write of CTRL, at any state. -/
theorem busAccess_ctrl (x : Word32) : busAccess ⟨4, 0x004, .write x⟩ s = (s.writeCtrl x, .ack) :=
  busAccess_open s (.write x) (show regionAt (0x004 : BitVec 17).toNat = some (.csr .ctrl) by decide) (by simp [Region.locked])

/-- A write of STATUS, at any state. -/
theorem busAccess_status (x : Word32) : busAccess ⟨4, 0x008, .write x⟩ s = (s.writeStatus x, .ack) :=
  busAccess_open s (.write x) (show regionAt (0x008 : BitVec 17).toNat = some (.csr .status) by decide) (by simp [Region.locked])

/-- THE INVERSION LEMMA of host accesses: everything an access can do to the state. -/
theorem busAccess_cases (a : Access) :
    (busAccess a s).1 = s ∨ (busAccess a s).1 = { s with accessErr := true } ∨
    (∃ x, a = ⟨4, 0x004, .write x⟩ ∧ (busAccess a s).1 = s.writeCtrl x) ∨
    (∃ x, (busAccess a s).1 = s.writeStatus x) ∨
    (s.busy = false ∧ ∃ x, (busAccess a s).1 = s.writeCp x) ∨
    (s.busy = false ∧ ∃ i x, (busAccess a s).1 = s.setReg i x) ∨
    (s.busy = false ∧ ∃ n < 256, ∃ x, (busAccess a s).1 = s.setWord32 (imemOffset n) x) ∨
    (s.busy = false ∧ ∃ e < 1024, ∃ j < 8, ∃ x, (busAccess a s).1 = s.setWord32 (tmemOffset e j) x) := by
  obtain ⟨width, off, op⟩ := a
  by_cases hw : width = 4
  · subst hw
    cases hr : regionAt off.toNat with
    | none => left; simp only [busAccess, hr]; rfl
    | some r =>
      by_cases hl : (s.busy && r.locked op) = true
      · rw [busAccess_refused s op hr hl]
        right; left
        cases op <;> rfl
      · have hl' : (s.busy && r.locked op) = false := by simpa using hl
        rw [busAccess_open s op hr hl']
        cases op with
        | read => left; rfl
        | write x =>
          rcases regionAt_range hr with ⟨c, rfl⟩ | ⟨i, j, -, rfl⟩ | ⟨n, hn, rfl⟩ | ⟨e, he, j, hj, rfl⟩
          · cases c with
            | ctrl =>
              right; right; left
              refine ⟨x, ?_, rfl⟩
              have : off = 0x004 := by
                apply BitVec.eq_of_toNat_eq
                have hlt := off.isLt
                unfold regionAt at hr
                simp only [Config.vBase, Config.imemBase, Config.imemWords, Config.tmemBase, Config.tmemEntries] at hr
                split at hr
                · cases hr
                · split at hr
                  · obtain ⟨c, hc, e⟩ := Option.map_eq_some_iff.1 hr
                    cases e
                    unfold csrAt at hc
                    split at hc <;> cases hc
                    rename_i h1 h2
                    show off.toNat = 4
                    omega
                  · split at hr
                    · cases hr
                    · split at hr
                      · cases hr
                      · split at hr <;> cases hr
              rw [this]
            | status => right; right; right; left; exact ⟨x, rfl⟩
            | cp =>
              right; right; right; right; left
              exact ⟨by simpa [Region.locked] using hl', x, rfl⟩
            | id => left; rfl
            | faultCause => left; rfl
            | faultCmd => left; rfl
            | cmdCount => left; rfl
            | cfg => left; rfl
          · right; right; right; right; right; left
            exact ⟨by simpa [Region.locked] using hl', i, _, rfl⟩
          · right; right; right; right; right; right; left
            exact ⟨by simpa [Region.locked] using hl', n, hn, x, rfl⟩
          · right; right; right; right; right; right; right
            exact ⟨by simpa [Region.locked] using hl', e, he, j, hj, x, rfl⟩
  · left
    simp only [busAccess, if_pos (show width ≠ 4 from hw)]

/-- No access touches the agenda or the recorded answers. -/
theorem busAccess_frame (a : Access) :
    (busAccess a s).1.agenda = s.agenda ∧ (busAccess a s).1.replies = s.replies ∧
      (busAccess a s).1.powerOns = s.powerOns := by
  rcases busAccess_cases s a with h | h | ⟨x, -, h⟩ | ⟨x, h⟩ | ⟨-, x, h⟩ | ⟨-, i, x, h⟩ | ⟨-, n, -, x, h⟩ |
    ⟨-, e, -, j, -, x, h⟩ <;> rw [h]
  · exact ⟨rfl, rfl, rfl⟩
  · exact ⟨rfl, rfl, rfl⟩
  · unfold State.writeCtrl
    split <;> exact ⟨rfl, rfl, rfl⟩
  · exact ⟨rfl, rfl, rfl⟩
  · exact ⟨rfl, rfl, rfl⟩
  · exact ⟨rfl, rfl, rfl⟩
  · exact ⟨rfl, rfl, rfl⟩
  · exact ⟨rfl, rfl, rfl⟩

theorem imemOffset_inArray (n : Nat) (h : n < 256) (k : Nat) (hk : k < 4) : Memory.inArray (imemOffset n + k) := by
  left
  simp only [imemOffset, Config.imemBase, Config.imemWords]
  omega

theorem tmemOffset_inArray (e j : Nat) (he : e < 1024) (hj : j < 8) (k : Nat) (hk : k < 4) :
    Memory.inArray (tmemOffset e j + k) := by
  right
  simp only [tmemOffset, Config.tmemBase, Config.tmemEntries]
  omega

/-- Every host access keeps memory canonical. -/
theorem busAccess_wf (a : Access) (h : Memory.wf s.mem) : Memory.wf (busAccess a s).1.mem := by
  rcases busAccess_cases s a with e | e | ⟨x, -, e⟩ | ⟨x, e⟩ | ⟨-, x, e⟩ | ⟨-, i, x, e⟩ | ⟨-, n, hn, x, e⟩ |
    ⟨-, n, hn, j, hj, x, e⟩ <;> rw [e]
  · exact h
  · exact h
  · unfold State.writeCtrl
    split <;> exact h
  · exact h
  · exact h
  · exact h
  · exact setWord32_wf s _ x h fun k hk => imemOffset_inArray n hn k hk
  · exact setWord32_wf s _ x h fun k hk => tmemOffset_inArray n j hn hj k hk

end Sys2Proof.Machine
end

