-- ==== Sys2Proof/Machine/Assembly.lean ====
section
/-! DEFINITION. The assembly language (30_encoding.md R140, R141): its text read line by line, its layout in IMEM, and the
host's turns that load a program and start it (70_reset_and_hazards.md R345). The core itself knows none of this. -/

namespace Sys2Proof.Machine

/-- What one line of assembly asks for. -/
inductive AsmItem where
  /-- A command at the next IMEM index. -/
  | command (i : Instr)
  /-- `.word x`: a raw word at the next IMEM index. -/
  | word (x : Word32)
  /-- `.org n`: the next command goes to IMEM index n. An n above 255 is read, and `layout` decides (log 15). -/
  | org (n : Nat)
  /-- A line with at most a label and a comment. -/
  | blank
  deriving DecidableEq, Repr

/-- Split at every occurrence of a character. -/
def splitAtChar (c : Char) : List Char → List (List Char)
  | [] => [[]]
  | x :: xs =>
    if x = c then [] :: splitAtChar c xs
    else match splitAtChar c xs with
      | [] => [[x]]
      | w :: ws => (x :: w) :: ws

/-- Blank characters of a line. -/
def isBlank (c : Char) : Bool := c = ' ' || c = '\t'

/-- Drop the blanks at both ends. -/
def trimBlanks (cs : List Char) : List Char := ((cs.dropWhile isBlank).reverse.dropWhile isBlank).reverse

/-- The value of a digit in a base up to 16. -/
def digitValue (base : Nat) (c : Char) : Option Nat :=
  let n := c.toNat
  let d := if 48 ≤ n ∧ n ≤ 57 then n - 48
    else if 97 ≤ n ∧ n ≤ 102 then n - 87
    else if 65 ≤ n ∧ n ≤ 70 then n - 55
    else 16
  if d < base then some d else none

/-- The digits of a number, most significant first, after those already read. -/
def readDigits (base : Nat) : Nat → List Char → Option Nat
  | acc, [] => some acc
  | acc, c :: cs => (digitValue base c).bind fun d => readDigits base (base * acc + d) cs

/-- An immediate: decimal, or hexadecimal after 0x (R140). -/
def readNumber : List Char → Option Nat
  | [] => none
  | '0' :: 'x' :: c :: cs => readDigits 16 0 (c :: cs)
  | c :: cs => readDigits 10 0 (c :: cs)

/-- A 10-bit immediate. -/
def readImm (cs : List Char) : Option Imm :=
  (readNumber cs).bind fun n => if h : n < 1024 then some ⟨n, h⟩ else none

/-- The constant names of 42_constants.md R240. -/
def romNames : List String :=
  ["ZERO", "ONE", "TWO", "MINUS_ONE", "P", "L", "R_MOD_L", "RINV_MOD_L", "TWO256_MOD_L"]

/-- The constant index of LDC: a number, or a name of 42_constants.md R240. -/
def readIndex (cs : List Char) : Option Imm :=
  match romNames.findIdx? fun n => n.toList == cs with
  | some k => if h : k < 1024 then some ⟨k, h⟩ else none
  | none => readImm cs

/-- A register operand: v and a decimal 0 to 15 (R140). -/
def readReg : List Char → Option Reg
  | 'v' :: c :: cs => (readDigits 10 0 (c :: cs)).bind fun n => if h : n < 16 then some ⟨n, h⟩ else none
  | _ => none

/-- Operands `vd, vs1` (R140). -/
def regs2 (f : Reg → Reg → Instr) : List (List Char) → Option Instr
  | [d, a] => (readReg d).bind fun rd => (readReg a).map fun ra => f rd ra
  | _ => none

/-- Operands `vd, vs1, vs2`, and CSWAP's `va, vb, vc` (R140). -/
def regs3 (f : Reg → Reg → Reg → Instr) : List (List Char) → Option Instr
  | [d, a, b] => (readReg d).bind fun rd => (readReg a).bind fun ra => (readReg b).map fun rb => f rd ra rb
  | _ => none

/-- Operands `vd, vs1, k` and `vd, vdigit, tbase` (R140). -/
def regs2Imm (f : Reg → Reg → Imm → Instr) : List (List Char) → Option Instr
  | [d, a, k] => (readReg d).bind fun rd => (readReg a).bind fun ra => (readImm k).map fun n => f rd ra n
  | _ => none

/-- A command or pseudo-command: mnemonic in capitals, and its operands (R140, R141). -/
def readCommand (mnemonic : String) (ops : List (List Char)) : Option Instr :=
  match mnemonic with
  | "NOP" => if ops = [] then some .nop else none
  | "HALT" => if ops = [] then some .halt else none
  | "MOV" => regs2 .mov ops
  | "SFROMB" => regs2 Instr.sfromb ops
  | "LDC" => match ops with
    | [d, k] => (readReg d).bind fun rd => (readIndex k).map fun n => Instr.ldc rd n
    | _ => none
  | "CLR" => match ops with
    | [d] => (readReg d).map Instr.clr
    | _ => none
  | "CSEL" => match ops with
    | [d, a, b, c] => (readReg c).bind fun rc => regs3 (fun rd ra rb => .csel rd ra rb rc) [d, a, b]
    | _ => none
  | "CSWAP" => regs3 .cswap ops
  | "FADD" => regs3 .fadd ops
  | "FSUB" => regs3 .fsub ops
  | "FNEG" => regs2 .fneg ops
  | "FMUL" => regs3 .fmul ops
  | "FSQR" => regs2 .fsqr ops
  | "FSQR2" => regs2 .fsqr2 ops
  | "FPOW2K" => regs2Imm .fpow2k ops
  | "FFROMB" => regs2 .ffromb ops
  | "FCHK" => regs2 .fchk ops
  | "FASB" => regs2 Instr.fasb ops
  | "SADD" => regs3 .sadd ops
  | "SSUB" => regs3 .ssub ops
  | "SNEG" => regs2 .sneg ops
  | "SMUL" => regs3 .smul ops
  | "SSQR" => regs2 .ssqr ops
  | "SRED" => regs2 .sred ops
  | "SASB" => regs2 Instr.sasb ops
  | "SREDW" => regs3 .sredw ops
  | "STOM" => regs2 .stom ops
  | "SFROMM" => regs2 .sfromm ops
  | "SMMUL" => regs3 .smmul ops
  | "SMSQR" => regs2 .smsqr ops
  | "SEL8" => regs2Imm .sel8 ops
  | "SELNAF" => regs2Imm .selnaf ops
  | "SELBP" => match ops with
    | [d, a, k] => (readReg d).bind fun rd => (readReg a).bind fun ra => (readNumber k).bind fun n =>
        if h : n < 32 then some (Instr.selbp rd ra ⟨n, h⟩) else none
    | _ => none
  | _ => none

/-- The operands of a line, between commas. -/
def operandsOf (cs : List Char) : List (List Char) :=
  if trimBlanks cs = [] then [] else (splitAtChar ',' cs).map trimBlanks

/-- A line without its comment and label: a directive or a command. Mnemonics are case-insensitive; a command that breaks
a value constraint of R124 is not assembled. -/
def readStatement (cs : List Char) : Option AsmItem :=
  let body := trimBlanks cs
  let name := body.takeWhile fun c => !isBlank c
  let ops := operandsOf (body.dropWhile fun c => !isBlank c)
  if body = [] then some .blank
  else if name = ".org".toList then
    match ops with
    | [n] => (readNumber n).map AsmItem.org
    | _ => none
  else if name = ".word".toList then
    match ops with
    | [x] => (readNumber x).bind fun n => if n < 2 ^ 32 then some (.word (BitVec.ofNat 32 n)) else none
    | _ => none
  else (readCommand (String.ofList (name.map Char.toUpper)) ops).bind fun i =>
    if i.wf then some (.command i) else none

/-- One line, `[label:] MNEMONIC [operand {, operand}] [; comment]` (R140): labels are documentation only. -/
def readLine (line : String) : Option AsmItem :=
  let code := line.toList.takeWhile fun c => c != ';'
  match splitAtChar ':' code with
  | [c] => readStatement c
  | [_, c] => readStatement c
  | _ => none

/-- One word at IMEM index n before the rest of a program; none when n is past the last index. -/
def placeWord (n : Nat) (x : Word32) (rest : Option (List (Nat × Word32))) : Option (List (Nat × Word32)) :=
  if n < Config.imemWords then rest.map ((n, x) :: ·) else none

/-- The words of a program at their IMEM indexes: consecutive, from index 0 or the last `.org` (R140). DESIGN CHOICE (log 15):
R140 does not say what becomes of a command or word that would go past index 255, after `.org n` with n above 255 or by
running on from 255; the model lays such a program out nowhere. Two words at one index both stand, the later line last. -/
def layout : Nat → List AsmItem → Option (List (Nat × Word32))
  | _, [] => some []
  | n, .command i :: r => placeWord n (encode i) (layout (n + 1) r)
  | n, .word x :: r => placeWord n x (layout (n + 1) r)
  | _, .org m :: r => layout m r
  | n, .blank :: r => layout n r

/-- The host's turns that write a laid out program into IMEM and then start a run at CP (70_reset_and_hazards.md R345). -/
def loadAndStart (program : List (Nat × Word32)) : List Turn :=
  (program.map fun nw => Turn.host ⟨4, BitVec.ofNat 17 (imemOffset nw.1), .write nw.2⟩) ++
    [Turn.host ⟨4, 0x004, .write 0x00000001⟩]

end Sys2Proof.Machine
end

