-- ==== Sys2Proof/Laws/Assembly.lean ====
section
/-! SUPPORT. Where the assembler's words go: to IMEM indexes only, so that loading a program writes IMEM and nothing else. -/

namespace Sys2Proof.Machine

theorem placeWord_some {n : Nat} {x : Word32} {rest : Option (List (Nat × Word32))} {p : List (Nat × Word32)}
    (h : placeWord n x rest = some p) : n < 256 ∧ ∃ q, rest = some q ∧ p = (n, x) :: q := by
  unfold placeWord at h
  split at h
  · obtain ⟨q, hq, rfl⟩ := Option.map_eq_some_iff.1 h
    exact ⟨‹_›, q, hq, rfl⟩
  · cases h

/-- Every word of a program that is laid out has an IMEM index. -/
theorem layout_index_lt {n : Nat} {items : List AsmItem} {p : List (Nat × Word32)} (h : layout n items = some p) :
    ∀ c ∈ p, c.1 < 256 := by
  have place : ∀ {m : Nat} {x : Word32} {r : List AsmItem} {p : List (Nat × Word32)},
      (∀ {q}, layout (m + 1) r = some q → ∀ c ∈ q, c.1 < 256) → placeWord m x (layout (m + 1) r) = some p →
      ∀ c ∈ p, c.1 < 256 := by
    intro m x r p ih h c hc
    obtain ⟨hm, q, hq, rfl⟩ := placeWord_some h
    rcases List.mem_cons.1 hc with rfl | hc
    · exact hm
    · exact ih hq c hc
  induction items generalizing n p with
  | nil => cases h; exact fun _ hc => nomatch hc
  | cons item r ih =>
    cases item with
    | command i => exact place ih h
    | word x => exact place ih h
    | org m => exact ih h
    | blank => exact ih h

/-- Loading a program that is laid out makes writes of IMEM words, and then the write that starts the run. -/
theorem loadAndStart_turns {n : Nat} {items : List AsmItem} {p : List (Nat × Word32)} (h : layout n items = some p) :
    ∀ t ∈ loadAndStart p, t = .host ⟨4, 0x004, .write 0x00000001⟩ ∨
      ∃ off k x, t = .host ⟨4, off, .write x⟩ ∧ regionAt off.toNat = some (.imem k) := by
  intro t ht
  rcases List.mem_append.1 ht with ht | ht
  · obtain ⟨c, hc, rfl⟩ := List.mem_map.1 ht
    have hlt := layout_index_lt h c hc
    refine .inr ⟨_, c.1, c.2, rfl, ?_⟩
    rw [offset_toNat _ (by simp only [imemOffset, Config.imemBase]; omega)]
    exact regionAt_imem c.1 hlt
  · exact .inl (by simpa using ht)

end Sys2Proof.Machine
end

