-- ==== Sys2Proof/Laws/Decode.lean ====
section
/-! SUPPORT. The fields of a packed word, a word as its packed fields, and what the must-be-zero masks say of the fields. -/

namespace Sys2Proof

variable (op : BitVec 6) (rd rs1 rs2 rs3 : Reg) (imm : Imm) (w : Word32)

@[simp] theorem fieldOp_packFields : fieldOp (packFields op rd rs1 rs2 rs3 imm) = op := by
  apply BitVec.eq_of_getLsbD_eq
  intro i hi
  simp only [fieldOp, packFields, BitVec.getLsbD_extractLsb', BitVec.getLsbD_append]
  simp [hi]

theorem fieldRd_packFields_bits :
    (packFields op rd rs1 rs2 rs3 imm).extractLsb' 22 4 = BitVec.ofFin (w := 4) rd := by
  apply BitVec.eq_of_getLsbD_eq
  intro i hi
  simp only [packFields, BitVec.getLsbD_extractLsb', BitVec.getLsbD_append]
  simp [hi]
  intro _; omega

theorem fieldRs1_packFields_bits :
    (packFields op rd rs1 rs2 rs3 imm).extractLsb' 18 4 = BitVec.ofFin (w := 4) rs1 := by
  apply BitVec.eq_of_getLsbD_eq
  intro i hi
  simp only [packFields, BitVec.getLsbD_extractLsb', BitVec.getLsbD_append]
  simp [hi, show 18 + i < 22 by omega]
  intro _; omega

theorem fieldRs2_packFields_bits :
    (packFields op rd rs1 rs2 rs3 imm).extractLsb' 14 4 = BitVec.ofFin (w := 4) rs2 := by
  apply BitVec.eq_of_getLsbD_eq
  intro i hi
  simp only [packFields, BitVec.getLsbD_extractLsb', BitVec.getLsbD_append]
  simp [hi, show 14 + i < 22 by omega, show 14 + i < 18 by omega]
  intro _; omega

theorem fieldRs3_packFields_bits :
    (packFields op rd rs1 rs2 rs3 imm).extractLsb' 10 4 = BitVec.ofFin (w := 4) rs3 := by
  apply BitVec.eq_of_getLsbD_eq
  intro i hi
  simp only [packFields, BitVec.getLsbD_extractLsb', BitVec.getLsbD_append]
  simp [hi, show 10 + i < 22 by omega, show 10 + i < 18 by omega, show 10 + i < 14 by omega]
  intro _; omega

theorem fieldImm_packFields_bits :
    (packFields op rd rs1 rs2 rs3 imm).extractLsb' 0 10 = BitVec.ofFin (w := 10) imm := by
  apply BitVec.eq_of_getLsbD_eq
  intro i hi
  simp only [packFields, BitVec.getLsbD_extractLsb', BitVec.getLsbD_append]
  simp [hi, show i < 22 by omega, show i < 18 by omega, show i < 14 by omega]
  intro _; omega

@[simp] theorem fieldRd_packFields : fieldRd (packFields op rd rs1 rs2 rs3 imm) = rd := by
  rw [fieldRd, fieldRd_packFields_bits]

@[simp] theorem fieldRs1_packFields : fieldRs1 (packFields op rd rs1 rs2 rs3 imm) = rs1 := by
  rw [fieldRs1, fieldRs1_packFields_bits]

@[simp] theorem fieldRs2_packFields : fieldRs2 (packFields op rd rs1 rs2 rs3 imm) = rs2 := by
  rw [fieldRs2, fieldRs2_packFields_bits]

@[simp] theorem fieldRs3_packFields : fieldRs3 (packFields op rd rs1 rs2 rs3 imm) = rs3 := by
  rw [fieldRs3, fieldRs3_packFields_bits]

@[simp] theorem fieldImm_packFields : fieldImm (packFields op rd rs1 rs2 rs3 imm) = imm := by
  rw [fieldImm, fieldImm_packFields_bits]

/-- A word is its six fields. -/
theorem packFields_fields :
    packFields (fieldOp w) (fieldRd w) (fieldRs1 w) (fieldRs2 w) (fieldRs3 w) (fieldImm w) = w := by
  apply BitVec.eq_of_getLsbD_eq
  intro i hi
  simp only [packFields, fieldOp, fieldRd, fieldRs1, fieldRs2, fieldRs3, fieldImm, BitVec.ofFin_toFin,
    BitVec.getLsbD_append, BitVec.getLsbD_extractLsb']
  interval_cases i <;> simp

/-! ## The must-be-zero bits of a packed word -/

theorem and_mask_eq_zero (m : Word32) (h : ∀ i < 32, m.getLsbD i = true → w.getLsbD i = false) : w &&& m = 0 := by
  apply BitVec.eq_of_getLsbD_eq
  intro i hi
  have := h i hi
  rw [BitVec.getLsbD_and]
  cases hm : m.getLsbD i <;> simp_all

theorem mbz_n : packFields op 0 0 0 0 0 &&& Format.n.mbz = 0 := by
  apply and_mask_eq_zero
  intro i hi
  simp only [packFields, BitVec.getLsbD_append, Format.mbz]
  interval_cases i <;> simp

theorem mbz_r1 : packFields op rd rs1 0 0 0 &&& Format.r1.mbz = 0 := by
  apply and_mask_eq_zero
  intro i hi
  simp only [packFields, BitVec.getLsbD_append, Format.mbz]
  interval_cases i <;> simp

theorem mbz_r2 : packFields op rd rs1 rs2 0 0 &&& Format.r2.mbz = 0 := by
  apply and_mask_eq_zero
  intro i hi
  simp only [packFields, BitVec.getLsbD_append, Format.mbz]
  interval_cases i <;> simp

theorem mbz_r3 : packFields op rd rs1 rs2 rs3 0 &&& Format.r3.mbz = 0 := by
  apply and_mask_eq_zero
  intro i hi
  simp only [packFields, BitVec.getLsbD_append, Format.mbz]
  interval_cases i <;> simp

theorem mbz_i : packFields op rd rs1 0 0 imm &&& Format.i.mbz = 0 := by
  apply and_mask_eq_zero
  intro i hi
  simp only [packFields, BitVec.getLsbD_append, Format.mbz]
  interval_cases i <;> simp

theorem mbz_t : packFields op rd rs1 0 0 imm &&& Format.t.mbz = 0 := mbz_i op rd rs1 imm

theorem mbz_k : packFields op rd 0 0 0 imm &&& Format.k.mbz = 0 := by
  apply and_mask_eq_zero
  intro i hi
  simp only [packFields, BitVec.getLsbD_append, Format.mbz]
  interval_cases i <;> simp

/-! ## What a clear mask says of a word's fields -/

theorem clear_bit {m : Word32} (h : w &&& m = 0) (i : Nat) (hm : m.getLsbD i = true) : w.getLsbD i = false := by
  have := congrArg (fun x => x.getLsbD i) h
  simpa [hm] using this

theorem field_toFin_eq_zero {n : Nat} (a : Nat) (h : ∀ i < n, w.getLsbD (a + i) = false) :
    w.extractLsb' a n = 0 := by
  apply BitVec.eq_of_getLsbD_eq
  intro i hi
  simp [h i hi]

theorem fieldRs1_zero {m : Word32} (h : w &&& m = 0) (hm : ∀ i < 4, m.getLsbD (18 + i) = true) : fieldRs1 w = 0 := by
  rw [fieldRs1, field_toFin_eq_zero w 18 fun i hi => clear_bit w h _ (hm i hi)]; rfl

theorem fieldRs2_zero {m : Word32} (h : w &&& m = 0) (hm : ∀ i < 4, m.getLsbD (14 + i) = true) : fieldRs2 w = 0 := by
  rw [fieldRs2, field_toFin_eq_zero w 14 fun i hi => clear_bit w h _ (hm i hi)]; rfl

theorem fieldRs3_zero {m : Word32} (h : w &&& m = 0) (hm : ∀ i < 4, m.getLsbD (10 + i) = true) : fieldRs3 w = 0 := by
  rw [fieldRs3, field_toFin_eq_zero w 10 fun i hi => clear_bit w h _ (hm i hi)]; rfl

theorem fieldRd_zero {m : Word32} (h : w &&& m = 0) (hm : ∀ i < 4, m.getLsbD (22 + i) = true) : fieldRd w = 0 := by
  rw [fieldRd, field_toFin_eq_zero w 22 fun i hi => clear_bit w h _ (hm i hi)]; rfl

theorem fieldImm_zero {m : Word32} (h : w &&& m = 0) (hm : ∀ i < 10, m.getLsbD (0 + i) = true) : fieldImm w = 0 := by
  rw [fieldImm, field_toFin_eq_zero w 0 fun i hi => clear_bit w h _ (hm i hi)]; rfl

/-! ## The decoder -/

/-- The opcode as a number (30_encoding.md R121). -/
theorem fieldOp_toNat : (fieldOp w).toNat = w.toNat / 2 ^ 26 := by
  have := w.isLt
  simp only [fieldOp, BitVec.extractLsb'_toNat, Nat.shiftRight_eq_div_pow]
  omega

theorem fieldOp_eq_of_toNat (n : Nat) (h : (fieldOp w).toNat = n) : fieldOp w = BitVec.ofNat 6 n := by
  apply BitVec.eq_of_toNat_eq
  have := (fieldOp w).isLt
  rw [h, BitVec.toNat_ofNat, Nat.mod_eq_of_lt (by omega)]

/-- The command a word's opcode names has that opcode. -/
theorem opcode_of_commandOf {w : Word32} {i : Instr} (h : commandOf w = some i) : i.opcode = fieldOp w := by
  unfold commandOf at h
  split at h <;> cases h
  all_goals exact (fieldOp_eq_of_toNat w _ ‹_›).symm

/-- Everything that decoding to a command says. -/
theorem decode_eq_ok {w : Word32} {i : Instr} :
    decode w = .ok i ↔ commandOf w = some i ∧ w &&& i.format.mbz = 0 ∧ i.wf = true := by
  unfold decode
  cases h : commandOf w with
  | none => simp
  | some j =>
    simp only [Option.some.injEq]
    split
    · rename_i hm
      constructor
      · intro e; cases e
      · rintro ⟨rfl, h0, -⟩; exact absurd h0 hm
    · rename_i hm
      split
      · rename_i hw
        constructor
        · intro e; cases e; exact ⟨rfl, by simpa using hm, hw⟩
        · rintro ⟨rfl, -, -⟩; rfl
      · rename_i hw
        constructor
        · intro e; cases e
        · rintro ⟨rfl, -, h1⟩; exact absurd h1 hw

/-- A word with a legal opcode that is refused is refused for a field. -/
theorem decode_illegalField {w : Word32} {i : Instr} (hc : commandOf w = some i)
    (h : w &&& i.format.mbz ≠ 0 ∨ i.wf = false) : decode w = .error .illegalField := by
  unfold decode
  rw [hc]
  by_cases hm : w &&& i.format.mbz ≠ 0
  · simp only [if_pos hm]
  · have hw : i.wf = false := h.resolve_left hm
    simp only [if_neg hm, hw, Bool.false_eq_true, if_false]

theorem decode_illegalOpcode {w : Word32} (hc : commandOf w = none) : decode w = .error .illegalOpcode := by
  unfold decode
  rw [hc]

/-- The decoder's faults are the two of decode. -/
theorem decode_error {w : Word32} {c : Cause} (h : decode w = .error c) : c = .illegalOpcode ∨ c = .illegalField := by
  unfold decode at h
  split at h
  · cases h; exact .inl rfl
  · split at h
    · cases h; exact .inr rfl
    · split at h
      · cases h
      · cases h; exact .inr rfl

end Sys2Proof
end

