-- ==== Sys2Proof/Laws/Operands.lean ====
section
/-! SUPPORT. The laws of the operand forms: `mod`, the moduli and the ROM's constants, operand checks, the blend, the scan of
a table. -/

namespace Sys2Proof.Machine

theorem p_pos : 0 < Config.p := by decide

theorem L_pos : 0 < Config.L := by decide

theorem p_lt_word : Config.p < 2 ^ 255 := by decide

theorem L_lt_word : Config.L < 2 ^ 253 := by decide

/-- ROM(7) inverts R modulo L (42_constants.md R240). -/
theorem R_mul_rInvModL : Config.R * rInvModL % Config.L = 1 := by decide

/-- ROM(8) is 2^256 modulo L (42_constants.md R240). -/
theorem two256ModL_eq : two256ModL = 2 ^ 256 % Config.L := by decide

theorem rom_some (k : Nat) (h : k ≤ 8) : ∃ x, rom k = some x := by
  interval_cases k <;> exact ⟨_, rfl⟩

theorem rom_none (k : Nat) (h : 8 < k) : rom k = none := by
  unfold rom
  split <;> first | omega | rfl

theorem toWord_toNat (n : Nat) (h : n < 2 ^ 256) : (toWord n).toNat = n := by
  rw [toWord, BitVec.toNat_ofNat, Nat.mod_eq_of_lt h]

theorem toWord_toNat_mod_p (n : Nat) : (toWord (n % Config.p)).toNat = n % Config.p :=
  toWord_toNat _ (by have := Nat.mod_lt n p_pos; have := p_lt_word; omega)

theorem toWord_toNat_mod_L (n : Nat) : (toWord (n % Config.L)).toNat = n % Config.L :=
  toWord_toNat _ (by have := Nat.mod_lt n L_pos; have := L_lt_word; omega)

@[simp] theorem toWord_self (x : Word) : toWord x.toNat = x := by simp [toWord]

/-- `modulo` answers in [0, m) … -/
theorem modulo_lt (x : Int) (m : Nat) (h : 0 < m) : modulo x m < m := by
  have h1 := Int.emod_nonneg x (show (m : Int) ≠ 0 by omega)
  have h2 := Int.emod_lt_of_pos x (show (0 : Int) < m by omega)
  unfold modulo
  omega

/-- … a number congruent to its argument. -/
theorem modulo_cast (x : Int) (m : Nat) (h : 0 < m) : (modulo x m : Int) = x % m := by
  have h1 := Int.emod_nonneg x (show (m : Int) ≠ 0 by omega)
  unfold modulo
  omega

theorem modulo_natCast (n m : Nat) : modulo (n : Int) m = n % m := by
  unfold modulo
  rw [← Int.natCast_emod, Int.toNat_natCast]

/-- `k` squarings raise to the power 2^k modulo p. -/
theorem squareTimes_eq (k t : Nat) (h : t < Config.p) : squareTimes k t = t ^ 2 ^ k % Config.p := by
  induction k generalizing t with
  | zero => simp [squareTimes, Nat.mod_eq_of_lt h]
  | succ k ih =>
    rw [squareTimes, ih _ (Nat.mod_lt _ p_pos), ← Nat.pow_mod, ← pow_two, ← pow_mul, pow_succ, mul_comm]

/-- A sum of two canonical values, reduced by one subtraction. -/
theorem add_mod_cases {a b m : Nat} (ha : a < m) (hb : b < m) :
    (a + b) % m = if a + b < m then a + b else a + b - m := by
  split
  · rw [Nat.mod_eq_of_lt ‹_›]
  · rw [Nat.mod_eq_sub_mod (by omega), Nat.mod_eq_of_lt (by omega)]

/-- A difference of two canonical values, reduced by one addition. -/
theorem modulo_sub_cases {a b m : Nat} (ha : a < m) (hb : b < m) :
    modulo ((a : Int) - b) m = if b ≤ a then a - b else a + m - b := by
  unfold modulo
  split
  · rw [Int.emod_eq_of_lt (by omega) (by omega)]; omega
  · rw [← Int.add_emod_right, Int.emod_eq_of_lt (by omega) (by omega)]; omega

/-- The negation of a canonical value. -/
theorem modulo_neg_cases {a m : Nat} (ha : a < m) : modulo (-(a : Int)) m = if a = 0 then 0 else m - a := by
  have h := modulo_sub_cases (a := 0) (b := a) (m := m) (by omega) ha
  simp only [Nat.cast_zero, zero_sub, Nat.le_zero] at h
  rw [h, Nat.zero_add]
  split <;> simp

theorem modulo_neg_eq {a m : Nat} (ha : a < m) : modulo (-(a : Int)) m = (m - a) % m := by
  rw [modulo_neg_cases ha]
  split
  · subst_vars; simp
  · rw [Nat.mod_eq_of_lt (by omega)]

/-- The inverse of R modulo L is unique, so it is ROM(7). -/
theorem eq_rInvModL {y : Nat} (hy : y < Config.L) (h : Config.R * y % Config.L = 1) : y = rInvModL := by
  have hr : rInvModL < Config.L := by decide
  have e1 : rInvModL * (Config.R * y) % Config.L = rInvModL := by
    rw [Nat.mul_mod, h, Nat.mul_one, Nat.mod_mod, Nat.mod_eq_of_lt hr]
  have e2 : (Config.R * rInvModL) * y % Config.L = y := by
    rw [Nat.mul_mod, R_mul_rInvModL, Nat.one_mul, Nat.mod_mod, Nat.mod_eq_of_lt hy]
  rw [show rInvModL * (Config.R * y) = (Config.R * rInvModL) * y by ring] at e1
  omega

/-- The pipeline of SREDW reduces the 512-bit value (41_scalar.md R207). -/
theorem reduceWide_eq (lo hi : Nat) : reduceWide lo hi = (hi * 2 ^ 256 + lo) % Config.L := by
  unfold reduceWide
  rw [two256ModL_eq, ← Nat.add_mod, Nat.add_mod, Nat.mul_mod, Nat.mod_mod, ← Nat.mul_mod, ← Nat.add_mod]

/-! ## Operand checks -/

variable (s : State)

theorem fe_ok (i : Reg) (h : (s.reg i).toNat < Config.p) : fe i s = .ok (s.reg i).toNat := by
  unfold fe; rw [if_neg (by omega)]

theorem fe_error (i : Reg) (h : Config.p ≤ (s.reg i).toNat) : fe i s = .error .noncanonicalFe := by
  unfold fe; rw [if_pos h]

theorem sc_ok (i : Reg) (h : (s.reg i).toNat < Config.L) : sc i s = .ok (s.reg i).toNat := by
  unfold sc; rw [if_neg (by omega)]

theorem sc_error (i : Reg) (h : Config.L ≤ (s.reg i).toNat) : sc i s = .error .noncanonicalSc := by
  unfold sc; rw [if_pos h]

theorem choice_ok (i : Reg) (h : s.reg i = 0 ∨ s.reg i = 1) : choice i s = .ok (s.reg i) := by
  unfold choice; rw [if_neg (by tauto)]

theorem choice_error (i : Reg) (h : s.reg i ≠ 0 ∧ s.reg i ≠ 1) : choice i s = .error .badChoice := by
  unfold choice; rw [if_pos h]

theorem fieldUnary_ok (f : Nat → Nat) (rd a : Reg) (ha : (s.reg a).toNat < Config.p) :
    fieldUnary f rd a s = .ok (s.setReg rd (toWord (f (s.reg a).toNat))) := by
  unfold fieldUnary; rw [fe_ok s a ha]; rfl

theorem fieldUnary_error (f : Nat → Nat) (rd a : Reg) (ha : Config.p ≤ (s.reg a).toNat) :
    fieldUnary f rd a s = .error .noncanonicalFe := by
  unfold fieldUnary; rw [fe_error s a ha]; rfl

theorem fieldBinary_ok (f : Nat → Nat → Nat) (rd a b : Reg) (ha : (s.reg a).toNat < Config.p)
    (hb : (s.reg b).toNat < Config.p) :
    fieldBinary f rd a b s = .ok (s.setReg rd (toWord (f (s.reg a).toNat (s.reg b).toNat))) := by
  unfold fieldBinary; rw [fe_ok s a ha, fe_ok s b hb]; rfl

theorem fieldBinary_error (f : Nat → Nat → Nat) (rd a b : Reg)
    (h : Config.p ≤ (s.reg a).toNat ∨ Config.p ≤ (s.reg b).toNat) :
    fieldBinary f rd a b s = .error .noncanonicalFe := by
  unfold fieldBinary
  by_cases ha : Config.p ≤ (s.reg a).toNat
  · rw [fe_error s a ha]; rfl
  · rw [fe_ok s a (by omega), fe_error s b (by tauto)]; rfl

theorem scalarUnary_ok (f : Nat → Nat) (rd a : Reg) (ha : (s.reg a).toNat < Config.L) :
    scalarUnary f rd a s = .ok (s.setReg rd (toWord (f (s.reg a).toNat))) := by
  unfold scalarUnary; rw [sc_ok s a ha]; rfl

theorem scalarUnary_error (f : Nat → Nat) (rd a : Reg) (ha : Config.L ≤ (s.reg a).toNat) :
    scalarUnary f rd a s = .error .noncanonicalSc := by
  unfold scalarUnary; rw [sc_error s a ha]; rfl

theorem scalarBinary_ok (f : Nat → Nat → Nat) (rd a b : Reg) (ha : (s.reg a).toNat < Config.L)
    (hb : (s.reg b).toNat < Config.L) :
    scalarBinary f rd a b s = .ok (s.setReg rd (toWord (f (s.reg a).toNat (s.reg b).toNat))) := by
  unfold scalarBinary; rw [sc_ok s a ha, sc_ok s b hb]; rfl

theorem scalarBinary_error (f : Nat → Nat → Nat) (rd a b : Reg)
    (h : Config.L ≤ (s.reg a).toNat ∨ Config.L ≤ (s.reg b).toNat) :
    scalarBinary f rd a b s = .error .noncanonicalSc := by
  unfold scalarBinary
  by_cases ha : Config.L ≤ (s.reg a).toNat
  · rw [sc_error s a ha]; rfl
  · rw [sc_ok s a (by omega), sc_error s b (by tauto)]; rfl

/-- The digit is the low byte alone. -/
theorem digit_range (i : Reg) : -128 ≤ digit i s ∧ digit i s ≤ 127 := by
  have h1 := BitVec.le_toInt ((s.reg i).extractLsb' 0 8)
  have h2 := BitVec.toInt_lt (x := (s.reg i).extractLsb' 0 8)
  unfold digit
  omega

/-- The digit as a number: the low byte in two's complement (43_tables.md R254). -/
theorem digit_eq (i : Reg) :
    digit i s = if (s.reg i).toNat % 256 < 128 then (((s.reg i).toNat % 256 : Nat) : Int)
      else ((s.reg i).toNat % 256 : Nat) - 256 := by
  unfold digit
  rw [BitVec.toInt_eq_toNat_cond, BitVec.extractLsb'_toNat]
  simp only [Nat.shiftRight_zero, Nat.reducePow]
  split <;> split <;> first | rfl | omega

/-! ## Blend and scan -/

@[simp] theorem blend_zero (a b : Word) : blend a b 0 = a := by
  show (a &&& ~~~(0#256 - 0#256)) ||| (b &&& (0#256 - 0#256)) = a
  simp only [BitVec.sub_zero, BitVec.not_zero, BitVec.and_allOnes, BitVec.and_zero, BitVec.or_zero]

@[simp] theorem blend_one (a b : Word) : blend a b 1 = b := by
  show (a &&& ~~~((0 : Word) - 1)) ||| (b &&& ((0 : Word) - 1)) = b
  rw [show (0 : Word) - 1 = BitVec.allOnes 256 by decide]
  simp only [BitVec.not_allOnes, BitVec.and_zero, BitVec.zero_or, BitVec.and_allOnes]

@[simp] theorem point_blend_true (x y : Point) : x.blend y (maskBit true) = y := by
  simp only [Point.blend, maskBit, if_true, blend_one]

@[simp] theorem point_blend_false (x y : Point) : x.blend y (maskBit false) = x := by
  simp only [Point.blend, maskBit, Bool.false_eq_true, if_false, blend_zero]

theorem point_blend_ite (x y : Point) (b : Bool) : x.blend y (maskBit b) = if b then y else x := by
  cases b <;> simp

/-- The scan leaves its start where no entry has the number wanted … -/
theorem scan_miss (a j : Nat) (es : List Point) (x : Point) (h : a < j ∨ j + es.length ≤ a) : scan a j es x = x := by
  induction es generalizing j x with
  | nil => rfl
  | cons e es ih =>
    simp only [List.length_cons] at h
    rw [scan, decide_eq_false (by omega), point_blend_false, ih _ _ (by omega)]

/-- … and otherwise answers the entry that has it. -/
theorem scan_hit (a j : Nat) (es : List Point) (x : Point) (h1 : j ≤ a) (h2 : a - j < es.length) :
    scan a j es x = es[a - j] := by
  induction es generalizing j x with
  | nil => simp at h2
  | cons e es ih =>
    simp only [List.length_cons] at h2
    by_cases h : a = j
    · subst h
      rw [scan, decide_eq_true rfl, point_blend_true, scan_miss _ _ _ _ (by omega)]
      simp
    · rw [scan, decide_eq_false h, point_blend_false, ih _ _ (by omega) (by omega)]
      simp only [show a - j = (a - (j + 1)) + 1 by omega, List.getElem_cons_succ]

@[simp] theorem table_length (tbase n : Nat) : (s.table tbase n).length = n := by simp [State.table]

theorem table_getElem (tbase n j : Nat) (h : j < (s.table tbase n).length) :
    (s.table tbase n)[j] = s.pointAt (tbase + 3 * j) := by simp [State.table]

/-- A table is canonical exactly when each of its entries is. -/
theorem table_canonical (tbase n : Nat) :
    (s.table tbase n).all Point.canonical = true ↔ ∀ e < 3 * n, (s.tread (tbase + e)).toNat < Config.p := by
  simp only [State.table, List.all_map, List.all_eq_true, List.mem_range, Function.comp, Point.canonical,
    State.pointAt, Bool.and_eq_true, decide_eq_true_eq]
  constructor
  · intro h e he
    have h3 := h (e / 3) (by omega)
    have hm : e = 3 * (e / 3) + e % 3 := by omega
    have : e % 3 = 0 ∨ e % 3 = 1 ∨ e % 3 = 2 := by omega
    rcases this with hr | hr | hr
    · have := h3.1.1; rwa [show tbase + 3 * (e / 3) = tbase + e by omega] at this
    · have := h3.1.2; rwa [show tbase + 3 * (e / 3) + 1 = tbase + e by omega] at this
    · have := h3.2; rwa [show tbase + 3 * (e / 3) + 2 = tbase + e by omega] at this
  · intro h j hj
    refine ⟨⟨?_, ?_⟩, ?_⟩
    · exact h (3 * j) (by omega)
    · have := h (3 * j + 1) (by omega); rwa [← Nat.add_assoc] at this
    · have := h (3 * j + 2) (by omega); rwa [← Nat.add_assoc] at this

/-- What writing a point writes, when its three registers exist (43_tables.md R250). -/
theorem setPoint_reg (rd : Reg) (x : Point) (h : rd.val ≤ 13) (r : Reg) :
    (s.setPoint rd x).reg r = if r.val = rd.val then x.ypx else if r.val = rd.val + 1 then x.ymx
      else if r.val = rd.val + 2 then x.xy2d else s.reg r := by
  have e1 : (rd + 1).val = rd.val + 1 := by rw [Fin.val_add]; simp; omega
  have e2 : (rd + 2).val = rd.val + 2 := by rw [Fin.val_add]; simp; omega
  unfold State.setPoint
  simp only [setReg_reg, Fin.ext_iff, e1, e2]
  split <;> split <;> (try split) <;> first | omega | simp_all

/-- The point a select answers: the entry with the wanted number (or the identity), negated for a negative digit. -/
def selected (d : Int) (a first n tbase : Nat) : Point :=
  let x := if first ≤ a ∧ a - first < n then s.pointAt (tbase + 3 * (a - first)) else Point.identity
  if d < 0 then x.neg else x

/-- Everything the shared part of the selects does: it writes the selected point, or finds an entry that is not canonical. -/
theorem selectInto_ok (rd : Reg) (d : Int) (a first n tbase : Nat)
    (h : ∀ k < 3 * n, (s.tread (tbase + k)).toNat < Config.p) :
    selectInto rd d a first (s.table tbase n) s = .ok (s.setPoint rd (selected s d a first n tbase)) := by
  have hs : scan a first (s.table tbase n) Point.identity =
      if first ≤ a ∧ a - first < n then s.pointAt (tbase + 3 * (a - first)) else Point.identity := by
    split
    · rename_i h
      rw [scan_hit a first _ _ h.1 (by simpa using h.2), table_getElem]
    · rw [scan_miss]
      rw [table_length]
      omega
  unfold selectInto
  rw [if_pos ((table_canonical s tbase n).2 h)]
  simp only [point_blend_ite, hs, decide_eq_true_eq, selected]

theorem selectInto_error (rd : Reg) (d : Int) (a first n tbase : Nat)
    (h : ¬ ∀ k < 3 * n, (s.tread (tbase + k)).toNat < Config.p) :
    selectInto rd d a first (s.table tbase n) s = .error .noncanonicalFe := by
  unfold selectInto
  rw [if_neg fun e => h ((table_canonical s tbase n).1 e)]

end Sys2Proof.Machine
end

