-- ==== Sys2Proof/Laws/Exec.lean ====
section
/-! SUPPORT. What retiring and fault entry are, and the inversion lemma of the commands: every command answers a next state,
which is the state before with some registers changed and then retired, or the fault state. Later proofs cite this and
do not unfold the meanings. -/

namespace Sys2Proof.Machine

variable (s : State)

/-- A state in which only V0..V15 differ. -/
def RegsOnly (s u : State) : Prop := ∃ v, u = { s with v := v }

theorem regsOnly_refl : RegsOnly s s := ⟨s.v, rfl⟩

theorem regsOnly_setReg {s u : State} (h : RegsOnly s u) (i : Reg) (x : Word) : RegsOnly s (u.setReg i x) := by
  obtain ⟨v, rfl⟩ := h
  exact ⟨_, rfl⟩

theorem regsOnly_setPoint {s u : State} (h : RegsOnly s u) (i : Reg) (x : Point) : RegsOnly s (u.setPoint i x) :=
  regsOnly_setReg (regsOnly_setReg (regsOnly_setReg h _ _) _ _) _ _

theorem retired_of_regsOnly {s u : State} (h : RegsOnly s u) : Retired s (u.retire false) := by
  obtain ⟨v, rfl⟩ := h
  refine ⟨rfl, rfl, fun hs => ?_, fun hs => ?_, ⟨rfl, rfl, rfl, rfl, rfl, rfl, rfl, fun _ => rfl, rfl, rfl, rfl⟩⟩
  · simp [hs]
  · simp [hs]

theorem faulted_raise (c : Cause) : Faulted c s (s.raise c) :=
  ⟨rfl, rfl, rfl, rfl, rfl, fun _ => rfl, rfl, rfl, rfl, rfl, rfl, rfl, fun _ => rfl, rfl, rfl, rfl⟩

@[simp] theorem settle_ok (u : State) : settle s (.ok u) = u.retire false := rfl

@[simp] theorem settle_error (c : Cause) : settle s (.error c) = s.raise c := rfl

/-- A command that ends in one register write retires, writing it. -/
theorem retiresWriting_of {i : Instr} {s : State} {rd : Reg} {x : Word}
    (h : exec i s = .next (settle s (.ok (s.setReg rd x)))) : RetiresWriting i s rd x :=
  ⟨_, h, retired_of_regsOnly (regsOnly_setReg (regsOnly_refl s) rd x), fun r => by simp [setReg_reg]⟩

/-- A command that ends in an operand check enters the fault state. -/
theorem faultsWith_of {i : Instr} {s : State} {c : Cause} (h : exec i s = .next (settle s (.error c))) :
    FaultsWith i s c := ⟨_, h, faulted_raise s c⟩

theorem retiresWriting_fieldUnary {i : Instr} {s : State} {f : Nat → Nat} {rd a : Reg}
    (h : exec i s = .next (settle s (fieldUnary f rd a s))) (ha : s.num a < Config.p) :
    RetiresWriting i s rd (BitVec.ofNat 256 (f (s.num a))) :=
  retiresWriting_of (x := toWord (f (s.num a))) (by rw [h, fieldUnary_ok s f rd a ha]; rfl)

theorem retiresWriting_fieldBinary {i : Instr} {s : State} {f : Nat → Nat → Nat} {rd a b : Reg}
    (h : exec i s = .next (settle s (fieldBinary f rd a b s))) (ha : s.num a < Config.p) (hb : s.num b < Config.p) :
    RetiresWriting i s rd (BitVec.ofNat 256 (f (s.num a) (s.num b))) :=
  retiresWriting_of (x := toWord (f (s.num a) (s.num b))) (by rw [h, fieldBinary_ok s f rd a b ha hb]; rfl)

theorem retiresWriting_scalarUnary {i : Instr} {s : State} {f : Nat → Nat} {rd a : Reg}
    (h : exec i s = .next (settle s (scalarUnary f rd a s))) (ha : s.num a < Config.L) :
    RetiresWriting i s rd (BitVec.ofNat 256 (f (s.num a))) :=
  retiresWriting_of (x := toWord (f (s.num a))) (by rw [h, scalarUnary_ok s f rd a ha]; rfl)

theorem retiresWriting_scalarBinary {i : Instr} {s : State} {f : Nat → Nat → Nat} {rd a b : Reg}
    (h : exec i s = .next (settle s (scalarBinary f rd a b s))) (ha : s.num a < Config.L) (hb : s.num b < Config.L) :
    RetiresWriting i s rd (BitVec.ofNat 256 (f (s.num a) (s.num b))) :=
  retiresWriting_of (x := toWord (f (s.num a) (s.num b))) (by rw [h, scalarBinary_ok s f rd a b ha hb]; rfl)

theorem retiresWriting_convert {i : Instr} {s : State} {f : Nat → Nat} {rd a : Reg}
    (h : exec i s = .next (settle s (convert f rd a s))) : RetiresWriting i s rd (BitVec.ofNat 256 (f (s.num a))) :=
  retiresWriting_of (x := toWord (f (s.num a))) h

theorem faultsWith_fieldUnary {i : Instr} {s : State} {f : Nat → Nat} {rd a : Reg}
    (h : exec i s = .next (settle s (fieldUnary f rd a s))) (e : Config.p ≤ s.num a) :
    FaultsWith i s .noncanonicalFe :=
  faultsWith_of (by rw [h, fieldUnary_error s f rd a e])

theorem faultsWith_fieldBinary {i : Instr} {s : State} {f : Nat → Nat → Nat} {rd a b : Reg}
    (h : exec i s = .next (settle s (fieldBinary f rd a b s))) (e : Config.p ≤ s.num a ∨ Config.p ≤ s.num b) :
    FaultsWith i s .noncanonicalFe :=
  faultsWith_of (by rw [h, fieldBinary_error s f rd a b e])

theorem faultsWith_scalarUnary {i : Instr} {s : State} {f : Nat → Nat} {rd a : Reg}
    (h : exec i s = .next (settle s (scalarUnary f rd a s))) (e : Config.L ≤ s.num a) :
    FaultsWith i s .noncanonicalSc :=
  faultsWith_of (by rw [h, scalarUnary_error s f rd a e])

theorem faultsWith_scalarBinary {i : Instr} {s : State} {f : Nat → Nat → Nat} {rd a b : Reg}
    (h : exec i s = .next (settle s (scalarBinary f rd a b s))) (e : Config.L ≤ s.num a ∨ Config.L ≤ s.num b) :
    FaultsWith i s .noncanonicalSc :=
  faultsWith_of (by rw [h, scalarBinary_error s f rd a b e])

/-- What a command that retires with a canonical value leaves in the registers, as numbers. -/
theorem retiresWriting_num {i : Instr} {s : State} {rd : Reg} {n : Nat} (h : RetiresWriting i s rd (BitVec.ofNat 256 n))
    (hn : n < 2 ^ 256) : ∃ t, exec i s = .next t ∧ t.num rd = n ∧ ∀ r, r ≠ rd → t.num r = s.num r := by
  obtain ⟨t, h1, -, h2⟩ := h
  refine ⟨t, h1, ?_, fun r hr => ?_⟩
  · unfold State.num; rw [h2, if_pos rfl, BitVec.toNat_ofNat, Nat.mod_eq_of_lt hn]
  · unfold State.num; rw [h2, if_neg hr]

/-- A choice register as a number. -/
theorem reg_eq_zero_of_num {c : Reg} (h : s.num c = 0) : s.reg c = 0 := BitVec.eq_of_toNat_eq h

theorem reg_eq_one_of_num {c : Reg} (h : s.num c = 1) : s.reg c = 1 := BitVec.eq_of_toNat_eq h

theorem reg_ne_of_num {c : Reg} (h : 2 ≤ s.num c) : s.reg c ≠ 0 ∧ s.reg c ≠ 1 := by
  unfold State.num at h
  refine ⟨fun e => ?_, fun e => ?_⟩ <;> rw [e] at h <;> revert h <;> decide

/-- SEL8 with legal fields, a digit in its domain and a canonical table retires, writing the selected point. -/
theorem exec_sel8_ok (rd a : Reg) (tbase : Imm) (hw : (Instr.sel8 rd a tbase).wf = true)
    (hd : ¬ (digit a s < -8 ∨ 8 < digit a s)) (h : ∀ k < 24, (s.tread (tbase.val + k)).toNat < Config.p) :
    exec (.sel8 rd a tbase) s = .next
      (State.retire false (s.setPoint rd (selected s (digit a s) (digit a s).natAbs 1 8 tbase.val))) := by
  simp only [Instr.wf] at hw
  simp only [exec, execSel8]
  rw [if_neg (by rw [hw]; decide), if_neg hd, selectInto_ok s rd _ _ 1 8 tbase.val h, settle_ok]

/-- SELNAF with legal fields, an odd digit and a canonical table retires, writing the selected point. -/
theorem exec_selnaf_ok (rd a : Reg) (tbase : Imm) (hw : (Instr.selnaf rd a tbase).wf = true)
    (hd : ¬ (digit a s % 2 = 0 ∨ digit a s < -127)) (h : ∀ k < 192, (s.tread (tbase.val + k)).toNat < Config.p) :
    exec (.selnaf rd a tbase) s = .next
      (State.retire false (s.setPoint rd (selected s (digit a s) (((digit a s).natAbs - 1) / 2) 0 64 tbase.val))) := by
  simp only [Instr.wf] at hw
  simp only [exec, execSelnaf]
  rw [if_neg (by rw [hw]; decide), if_neg hd, selectInto_ok s rd _ _ 0 64 tbase.val h, settle_ok]

/-- What the end of a command can be whose writes touch the registers of `D` only. -/
def Settles (D : List Reg) (halt : Bool) (s t : State) : Prop :=
  (∃ u, RegsOnly s u ∧ (∀ r, r ∉ D → u.reg r = s.reg r) ∧ t = u.retire halt) ∨ ∃ c, t = s.raise c

theorem settles_error (D : List Reg) (c : Cause) : Settles D false s (settle s (.error c)) := .inr ⟨c, rfl⟩

theorem settles_same (D : List Reg) : Settles D false s (settle s (.ok s)) :=
  .inl ⟨s, regsOnly_refl s, fun _ _ => rfl, rfl⟩

theorem settles_setReg {D : List Reg} {rd : Reg} (h : rd ∈ D) (x : Word) :
    Settles D false s (settle s (.ok (s.setReg rd x))) :=
  .inl ⟨_, regsOnly_setReg (regsOnly_refl s) _ _, fun _ hr => setReg_reg_of_ne s _ _ _ (by rintro rfl; exact hr h), rfl⟩

theorem settles_fieldUnary (f : Nat → Nat) {D : List Reg} {rd : Reg} (h : rd ∈ D) (a : Reg) :
    Settles D false s (settle s (fieldUnary f rd a s)) := by
  by_cases e : (s.reg a).toNat < Config.p
  · rw [fieldUnary_ok s f rd a e]; exact settles_setReg s h _
  · rw [fieldUnary_error s f rd a (by omega)]; exact settles_error s D _

theorem settles_fieldBinary (f : Nat → Nat → Nat) {D : List Reg} {rd : Reg} (h : rd ∈ D) (a b : Reg) :
    Settles D false s (settle s (fieldBinary f rd a b s)) := by
  by_cases e : (s.reg a).toNat < Config.p ∧ (s.reg b).toNat < Config.p
  · rw [fieldBinary_ok s f rd a b e.1 e.2]; exact settles_setReg s h _
  · rw [fieldBinary_error s f rd a b (by omega)]; exact settles_error s D _

theorem settles_scalarUnary (f : Nat → Nat) {D : List Reg} {rd : Reg} (h : rd ∈ D) (a : Reg) :
    Settles D false s (settle s (scalarUnary f rd a s)) := by
  by_cases e : (s.reg a).toNat < Config.L
  · rw [scalarUnary_ok s f rd a e]; exact settles_setReg s h _
  · rw [scalarUnary_error s f rd a (by omega)]; exact settles_error s D _

theorem settles_scalarBinary (f : Nat → Nat → Nat) {D : List Reg} {rd : Reg} (h : rd ∈ D) (a b : Reg) :
    Settles D false s (settle s (scalarBinary f rd a b s)) := by
  by_cases e : (s.reg a).toNat < Config.L ∧ (s.reg b).toNat < Config.L
  · rw [scalarBinary_ok s f rd a b e.1 e.2]; exact settles_setReg s h _
  · rw [scalarBinary_error s f rd a b (by omega)]; exact settles_error s D _

theorem settles_convert (f : Nat → Nat) {D : List Reg} {rd : Reg} (h : rd ∈ D) (a : Reg) :
    Settles D false s (settle s (convert f rd a s)) := settles_setReg s h _

theorem settles_selectInto {D : List Reg} {rd : Reg} (h : rd ∈ D) (h1 : rd + 1 ∈ D) (h2 : rd + 2 ∈ D) (d : Int)
    (a j : Nat) (tbl : List Point) : Settles D false s (settle s (selectInto rd d a j tbl s)) := by
  unfold selectInto
  split
  · refine .inl ⟨_, regsOnly_setPoint (regsOnly_refl s) _ _, fun r hr => ?_, rfl⟩
    unfold State.setPoint
    rw [setReg_reg_of_ne _ _ _ _ (by rintro rfl; exact hr h2), setReg_reg_of_ne _ _ _ _ (by rintro rfl; exact hr h1),
      setReg_reg_of_ne _ _ _ _ (by rintro rfl; exact hr h)]
  · exact settles_error s D _

/-- THE INVERSION LEMMA: every command answers a next state, and what that state can be: the state before with registers of
its destinations changed and then retired, or the fault state. -/
theorem exec_settles (i : Instr) : ∃ t, exec i s = .next t ∧ Settles i.dests (decide (i = .halt)) s t := by
  cases i with
  | nop => exact ⟨_, rfl, settles_same s _⟩
  | halt => exact ⟨_, rfl, .inl ⟨s, regsOnly_refl s, fun _ _ => rfl, rfl⟩⟩
  | mov rd a => exact ⟨_, rfl, settles_setReg s (by simp [Instr.dests]) _⟩
  | ldc rd k =>
    refine ⟨_, rfl, ?_⟩
    cases rom k.val with
    | none => exact settles_error s _ _
    | some x => exact settles_setReg s (by simp [Instr.dests]) _
  | csel rd a b c =>
    refine ⟨_, rfl, ?_⟩
    by_cases h : s.reg c = 0 ∨ s.reg c = 1
    · rw [choice_ok s c h]; exact settles_setReg s (by simp [Instr.dests]) _
    · rw [choice_error s c (by tauto)]; exact settles_error s _ _
  | cswap a b c =>
    refine ⟨_, rfl, ?_⟩
    by_cases h : s.reg c = 0 ∨ s.reg c = 1
    · rw [choice_ok s c h]
      refine .inl ⟨_, regsOnly_setReg (regsOnly_setReg (regsOnly_refl s) _ _) _ _, fun r hr => ?_, rfl⟩
      simp only [Instr.dests, List.mem_cons, List.not_mem_nil, or_false, not_or] at hr
      rw [setReg_reg_of_ne _ _ _ _ hr.2, setReg_reg_of_ne _ _ _ _ hr.1]
    · rw [choice_error s c (by tauto)]; exact settles_error s _ _
  | fadd rd a b => exact ⟨_, rfl, settles_fieldBinary s _ (by simp [Instr.dests]) _ _⟩
  | fsub rd a b => exact ⟨_, rfl, settles_fieldBinary s _ (by simp [Instr.dests]) _ _⟩
  | fneg rd a => exact ⟨_, rfl, settles_fieldUnary s _ (by simp [Instr.dests]) _⟩
  | fmul rd a b => exact ⟨_, rfl, settles_fieldBinary s _ (by simp [Instr.dests]) _ _⟩
  | fsqr rd a => exact ⟨_, rfl, settles_fieldUnary s _ (by simp [Instr.dests]) _⟩
  | fsqr2 rd a => exact ⟨_, rfl, settles_fieldUnary s _ (by simp [Instr.dests]) _⟩
  | fpow2k rd a k =>
    refine ⟨_, rfl, ?_⟩
    split
    · exact settles_fieldUnary s _ (by simp [Instr.dests]) _
    · exact settles_error s _ _
  | ffromb rd a => exact ⟨_, rfl, settles_convert s _ (by simp [Instr.dests]) _⟩
  | fchk rd a => exact ⟨_, rfl, settles_fieldUnary s _ (by simp [Instr.dests]) _⟩
  | sadd rd a b => exact ⟨_, rfl, settles_scalarBinary s _ (by simp [Instr.dests]) _ _⟩
  | ssub rd a b => exact ⟨_, rfl, settles_scalarBinary s _ (by simp [Instr.dests]) _ _⟩
  | sneg rd a => exact ⟨_, rfl, settles_scalarUnary s _ (by simp [Instr.dests]) _⟩
  | smul rd a b => exact ⟨_, rfl, settles_scalarBinary s _ (by simp [Instr.dests]) _ _⟩
  | ssqr rd a => exact ⟨_, rfl, settles_scalarUnary s _ (by simp [Instr.dests]) _⟩
  | sred rd a => exact ⟨_, rfl, settles_convert s _ (by simp [Instr.dests]) _⟩
  | sredw rd a b => exact ⟨_, rfl, settles_setReg s (by simp [Instr.dests]) _⟩
  | stom rd a => exact ⟨_, rfl, settles_convert s _ (by simp [Instr.dests]) _⟩
  | sfromm rd a => exact ⟨_, rfl, settles_convert s _ (by simp [Instr.dests]) _⟩
  | smmul rd a b => exact ⟨_, rfl, settles_scalarBinary s _ (by simp [Instr.dests]) _ _⟩
  | smsqr rd a => exact ⟨_, rfl, settles_scalarUnary s _ (by simp [Instr.dests]) _⟩
  | sel8 rd a tb =>
    refine ⟨_, rfl, ?_⟩
    split
    · exact settles_error s _ _
    · split
      · exact settles_error s _ _
      · exact settles_selectInto s (by simp [Instr.dests]) (by simp [Instr.dests]) (by simp [Instr.dests]) _ _ _ _
  | selnaf rd a tb =>
    refine ⟨_, rfl, ?_⟩
    split
    · exact settles_error s _ _
    · split
      · exact settles_error s _ _
      · exact settles_selectInto s (by simp [Instr.dests]) (by simp [Instr.dests]) (by simp [Instr.dests]) _ _ _ _

end Sys2Proof.Machine
end

