-- ==== Sys2Proof/Laws/PerInstr.lean ====
section
/-! SUPPORT. For every command: the word it encodes to reads back as that command, and has no must-be-zero bit set. -/

namespace Sys2Proof.Laws.EncodedFields

/-- The encoded word of a command carries its opcode and every operand, and its must-be-zero bits are 0. -/
def Statement (i : Instr) : Prop := commandOf (encode i) = some i ∧ encode i &&& i.format.mbz = 0

theorem nop : Statement (.nop) :=
  ⟨by simp [commandOf, encode, Instr.opcode], mbz_n ..⟩

theorem halt : Statement (.halt) :=
  ⟨by simp [commandOf, encode, Instr.opcode], mbz_n ..⟩

theorem mov (rd rs1 : Reg) : Statement (.mov rd rs1) :=
  ⟨by simp [commandOf, encode, Instr.opcode], mbz_r1 ..⟩

theorem ldc (rd : Reg) (index : Imm) : Statement (.ldc rd index) :=
  ⟨by simp [commandOf, encode, Instr.opcode], mbz_k ..⟩

theorem csel (rd rs1 rs2 rs3 : Reg) : Statement (.csel rd rs1 rs2 rs3) :=
  ⟨by simp [commandOf, encode, Instr.opcode], mbz_r3 ..⟩

theorem cswap (ra rb rc : Reg) : Statement (.cswap ra rb rc) :=
  ⟨by simp [commandOf, encode, Instr.opcode], mbz_r2 ..⟩

theorem fadd (rd rs1 rs2 : Reg) : Statement (.fadd rd rs1 rs2) :=
  ⟨by simp [commandOf, encode, Instr.opcode], mbz_r2 ..⟩

theorem fsub (rd rs1 rs2 : Reg) : Statement (.fsub rd rs1 rs2) :=
  ⟨by simp [commandOf, encode, Instr.opcode], mbz_r2 ..⟩

theorem fneg (rd rs1 : Reg) : Statement (.fneg rd rs1) :=
  ⟨by simp [commandOf, encode, Instr.opcode], mbz_r1 ..⟩

theorem fmul (rd rs1 rs2 : Reg) : Statement (.fmul rd rs1 rs2) :=
  ⟨by simp [commandOf, encode, Instr.opcode], mbz_r2 ..⟩

theorem fsqr (rd rs1 : Reg) : Statement (.fsqr rd rs1) :=
  ⟨by simp [commandOf, encode, Instr.opcode], mbz_r1 ..⟩

theorem fsqr2 (rd rs1 : Reg) : Statement (.fsqr2 rd rs1) :=
  ⟨by simp [commandOf, encode, Instr.opcode], mbz_r1 ..⟩

theorem fpow2k (rd rs1 : Reg) (k : Imm) : Statement (.fpow2k rd rs1 k) :=
  ⟨by simp [commandOf, encode, Instr.opcode], mbz_i ..⟩

theorem ffromb (rd rs1 : Reg) : Statement (.ffromb rd rs1) :=
  ⟨by simp [commandOf, encode, Instr.opcode], mbz_r1 ..⟩

theorem fchk (rd rs1 : Reg) : Statement (.fchk rd rs1) :=
  ⟨by simp [commandOf, encode, Instr.opcode], mbz_r1 ..⟩

theorem sadd (rd rs1 rs2 : Reg) : Statement (.sadd rd rs1 rs2) :=
  ⟨by simp [commandOf, encode, Instr.opcode], mbz_r2 ..⟩

theorem ssub (rd rs1 rs2 : Reg) : Statement (.ssub rd rs1 rs2) :=
  ⟨by simp [commandOf, encode, Instr.opcode], mbz_r2 ..⟩

theorem sneg (rd rs1 : Reg) : Statement (.sneg rd rs1) :=
  ⟨by simp [commandOf, encode, Instr.opcode], mbz_r1 ..⟩

theorem smul (rd rs1 rs2 : Reg) : Statement (.smul rd rs1 rs2) :=
  ⟨by simp [commandOf, encode, Instr.opcode], mbz_r2 ..⟩

theorem ssqr (rd rs1 : Reg) : Statement (.ssqr rd rs1) :=
  ⟨by simp [commandOf, encode, Instr.opcode], mbz_r1 ..⟩

theorem sred (rd rs1 : Reg) : Statement (.sred rd rs1) :=
  ⟨by simp [commandOf, encode, Instr.opcode], mbz_r1 ..⟩

theorem sredw (rd rs1 rs2 : Reg) : Statement (.sredw rd rs1 rs2) :=
  ⟨by simp [commandOf, encode, Instr.opcode], mbz_r2 ..⟩

theorem stom (rd rs1 : Reg) : Statement (.stom rd rs1) :=
  ⟨by simp [commandOf, encode, Instr.opcode], mbz_r1 ..⟩

theorem sfromm (rd rs1 : Reg) : Statement (.sfromm rd rs1) :=
  ⟨by simp [commandOf, encode, Instr.opcode], mbz_r1 ..⟩

theorem smmul (rd rs1 rs2 : Reg) : Statement (.smmul rd rs1 rs2) :=
  ⟨by simp [commandOf, encode, Instr.opcode], mbz_r2 ..⟩

theorem smsqr (rd rs1 : Reg) : Statement (.smsqr rd rs1) :=
  ⟨by simp [commandOf, encode, Instr.opcode], mbz_r1 ..⟩

theorem sel8 (rd rs1 : Reg) (tbase : Imm) : Statement (.sel8 rd rs1 tbase) :=
  ⟨by simp [commandOf, encode, Instr.opcode], mbz_t ..⟩

theorem selnaf (rd rs1 : Reg) (tbase : Imm) : Statement (.selnaf rd rs1 tbase) :=
  ⟨by simp [commandOf, encode, Instr.opcode], mbz_t ..⟩

end Sys2Proof.Laws.EncodedFields

namespace Sys2Proof

/-- `EncodedFields.Statement` of every command. -/
theorem encoded_fields (i : Instr) : Laws.EncodedFields.Statement i := by
  cases i with
  | nop => exact Laws.EncodedFields.nop
  | halt => exact Laws.EncodedFields.halt
  | mov rd rs1 => exact Laws.EncodedFields.mov rd rs1
  | ldc rd index => exact Laws.EncodedFields.ldc rd index
  | csel rd rs1 rs2 rs3 => exact Laws.EncodedFields.csel rd rs1 rs2 rs3
  | cswap ra rb rc => exact Laws.EncodedFields.cswap ra rb rc
  | fadd rd rs1 rs2 => exact Laws.EncodedFields.fadd rd rs1 rs2
  | fsub rd rs1 rs2 => exact Laws.EncodedFields.fsub rd rs1 rs2
  | fneg rd rs1 => exact Laws.EncodedFields.fneg rd rs1
  | fmul rd rs1 rs2 => exact Laws.EncodedFields.fmul rd rs1 rs2
  | fsqr rd rs1 => exact Laws.EncodedFields.fsqr rd rs1
  | fsqr2 rd rs1 => exact Laws.EncodedFields.fsqr2 rd rs1
  | fpow2k rd rs1 k => exact Laws.EncodedFields.fpow2k rd rs1 k
  | ffromb rd rs1 => exact Laws.EncodedFields.ffromb rd rs1
  | fchk rd rs1 => exact Laws.EncodedFields.fchk rd rs1
  | sadd rd rs1 rs2 => exact Laws.EncodedFields.sadd rd rs1 rs2
  | ssub rd rs1 rs2 => exact Laws.EncodedFields.ssub rd rs1 rs2
  | sneg rd rs1 => exact Laws.EncodedFields.sneg rd rs1
  | smul rd rs1 rs2 => exact Laws.EncodedFields.smul rd rs1 rs2
  | ssqr rd rs1 => exact Laws.EncodedFields.ssqr rd rs1
  | sred rd rs1 => exact Laws.EncodedFields.sred rd rs1
  | sredw rd rs1 rs2 => exact Laws.EncodedFields.sredw rd rs1 rs2
  | stom rd rs1 => exact Laws.EncodedFields.stom rd rs1
  | sfromm rd rs1 => exact Laws.EncodedFields.sfromm rd rs1
  | smmul rd rs1 rs2 => exact Laws.EncodedFields.smmul rd rs1 rs2
  | smsqr rd rs1 => exact Laws.EncodedFields.smsqr rd rs1
  | sel8 rd rs1 tbase => exact Laws.EncodedFields.sel8 rd rs1 tbase
  | selnaf rd rs1 tbase => exact Laws.EncodedFields.selnaf rd rs1 tbase

end Sys2Proof
end

