-- ==== Sys2Proof/Laws/Step.lean ====
section
/-! SUPPORT. The inversion lemmas of the sequencer's turn and of the machine's step. -/

namespace Sys2Proof.Machine

variable (s : State)

theorem fetch_ok (h : s.cp.toNat < 256) : s.fetch = .ok (s.iread s.cp.toNat) := by
  unfold State.fetch
  rw [if_neg (by omega)]

theorem fetch_error (h : 256 ≤ s.cp.toNat) : s.fetch = .error .cpRange := by
  unfold State.fetch
  rw [if_pos h]

/-- What a running sequencer's step leads to: registers changed and retirement, or fault entry. -/
def Moves (s t : State) : Prop := (∃ v h, t = State.retire h { s with v := v }) ∨ ∃ c, t = s.raise c

/-- Everything a running sequencer's step can do. -/
theorem runCommand_moves : ∃ t, runCommand s = .next t ∧ Moves s t := by
  unfold runCommand
  cases s.fetch with
  | error c => exact ⟨_, rfl, .inr ⟨c, rfl⟩⟩
  | ok w =>
    simp only []
    cases decode w with
    | error c => exact ⟨_, rfl, .inr ⟨c, rfl⟩⟩
    | ok i =>
      obtain ⟨t, h1, h2⟩ := exec_settles s i
      refine ⟨t, h1, ?_⟩
      rcases h2 with ⟨u, ⟨v, rfl⟩, -, rfl⟩ | h2
      · exact .inl ⟨v, _, rfl⟩
      · exact .inr h2

/-- Everything the sequencer's turn can do. -/
theorem sequencerTurn_cases :
    ∃ t, sequencerTurn s = .next t ∧ (s.busy = false ∧ t = s ∨ s.busy = true ∧ Moves s t) := by
  unfold sequencerTurn
  cases hb : s.busy with
  | false => exact ⟨s, rfl, .inl ⟨rfl, rfl⟩⟩
  | true =>
    obtain ⟨t, h1, h2⟩ := runCommand_moves s
    exact ⟨t, h1, .inr ⟨rfl, h2⟩⟩

/-- THE INVERSION LEMMA of a step: which agent moved, in which state, and what it did. -/
theorem step_cases :
    (∃ u : State, ((s.agenda = [] ∧ u = s) ∨ ∃ rest, s.agenda = .sequencer :: rest ∧ u = { s with agenda := rest }) ∧
      step s = sequencerTurn u) ∨
    (∃ a rest, s.agenda = .host a :: rest ∧ step s = .next (hostTurn a { s with agenda := rest })) ∨
    (∃ rest, s.agenda = .powerOn :: rest ∧ step s = .next (State.powerOnReset { s with agenda := rest })) := by
  cases h : s.agenda with
  | nil => exact .inl ⟨s, .inl ⟨rfl, rfl⟩, by simp only [step, h]⟩
  | cons t rest =>
    cases t with
    | sequencer => exact .inl ⟨_, .inr ⟨rest, rfl, rfl⟩, by simp only [step, h]⟩
    | host a => exact .inr (.inl ⟨a, rest, rfl, by simp only [step, h]⟩)
    | powerOn => exact .inr (.inr ⟨rest, rfl, by simp only [step, h]⟩)

end Sys2Proof.Machine
end

