-- ==== Sys2Proof/Tests/Slice0.lean ====
section
/-! SUPPORT. The model's own tests. Words are written out from the bit patterns of 30_encoding.md R122 and R125; results come
from 95_test_vectors.md (T1 to T150, H1 to H17) or from the rule named. The witnesses show that the hypotheses of the
obligations can be met, at the ends of their ranges. -/

namespace Sys2Proof.Tests

open Sys2Proof Sys2Proof.Machine

/-! ## Helpers -/

/-- A running core, everything else at reset. -/
def running : State := { State.reset with busy := true }

/-- Registers set, one after another. -/
def setRegs : List (Reg × Word) → State → State
  | [], s => s
  | (i, x) :: l, s => setRegs l (s.setReg i x)

/-- V[r] after the command retired at a running core with these registers; none if it faulted. -/
def result (i : Instr) (l : List (Reg × Word)) (r : Reg) : Option Word :=
  match exec i (setRegs l running) with
  | .next t => if t.fault then none else some (t.reg r)
  | _ => none

/-- The cause of the fault the command takes at a running core with these registers. -/
def causeOf (i : Instr) (l : List (Reg × Word)) : Option Cause :=
  match exec i (setRegs l running) with
  | .next t => t.cause
  | _ => none

/-- The state after one step. -/
def after (s : State) : State :=
  match step s with
  | .next t => t
  | _ => s

/-- The word is the encoding of the command, both ways. -/
def Codes (w : Word32) (i : Instr) : Prop := decode w = .ok i ∧ encode i = w

/-- TMEM holding `n` entries of the given values, entry 0 first. -/
def tableState (val : Nat → Nat) (n : Nat) : State :=
  { running with
    mem := (List.range' 0x10000 (32 * n)).map fun a =>
      (a, BitVec.ofNat 8 (val ((a - 0x10000) / 32) / 256 ^ ((a - 0x10000) % 32))) }

theorem lookup_range' (f : Nat → Byte) (b n a : Nat) :
    Memory.lookup ((List.range' b n).map fun k => (k, f k)) a = if b ≤ a ∧ a < b + n then some (f a) else none := by
  induction n generalizing b with
  | zero => rw [if_neg (by omega)]; rfl
  | succ n ih =>
    rw [List.range'_succ, List.map_cons, Memory.lookup, ih]
    by_cases h : b = a
    · subst h
      rw [if_pos rfl, if_pos (by omega)]
    · rw [if_neg h]
      by_cases h' : b + 1 ≤ a ∧ a < b + 1 + n
      · rw [if_pos h', if_pos (by omega)]
      · rw [if_neg h', if_neg (by omega)]

theorem leValue_digits (v m : Nat) : leValue ((List.range m).map fun k => BitVec.ofNat 8 (v / 256 ^ k)) = v % 256 ^ m := by
  induction m with
  | zero => simp [leValue, Nat.mod_one]
  | succ m ih =>
    rw [List.range_succ, List.map_append, leValue_append, ih, List.length_map, List.length_range, List.map_singleton,
      leValue, leValue, Nat.mul_zero, Nat.add_zero, BitVec.toNat_ofNat, pow_succ]
    exact Nat.mod_mul.symm

/-- Entry e of such a TMEM. -/
theorem tableState_tread (val : Nat → Nat) (n e : Nat) (h : e < n) :
    (tableState val n).tread e = BitVec.ofNat 256 (val e) := by
  have hb : (tableState val n).bytesAt (tmemOffset e 0) 32 =
      (List.range 32).map fun k => BitVec.ofNat 8 (val e / 256 ^ k) := by
    apply List.map_congr_left
    intro k hk
    have hk := List.mem_range.1 hk
    have ht : tmemOffset e 0 = 0x10000 + 32 * e := by simp [tmemOffset, Config.tmemBase]
    show (Memory.lookup (tableState val n).mem (tmemOffset e 0 + k)).getD _ = _
    rw [ht]
    simp only [tableState]
    rw [lookup_range' (fun a => BitVec.ofNat 8 (val ((a - 0x10000) / 32) / 256 ^ ((a - 0x10000) % 32))) _ _ _,
      if_pos (by omega), show (0x10000 + 32 * e + k - 0x10000) / 32 = e by omega,
      show (0x10000 + 32 * e + k - 0x10000) % 32 = k by omega]
    rfl
  unfold State.tread
  rw [hb, leValue_digits, show (256 : Nat) ^ 32 = 2 ^ 256 by norm_num]
  apply BitVec.eq_of_toNat_eq
  simp

/-! ## Well-formedness: each check refuses a term that breaks it (30_encoding.md R124) -/

theorem test_illformed_squaringCount : (Instr.fpow2k 0 1 0).wf = false := by decide
theorem test_illformed_romIndex : (Instr.ldc 0 9).wf = false := by decide
theorem test_illformed_tripleDest : (Instr.sel8 14 0 0).wf = false ∧ (Instr.selnaf 14 1 0).wf = false := by decide
theorem test_illformed_lookupTable : (Instr.sel8 0 0 1001).wf = false := by decide
theorem test_illformed_nafTable : (Instr.selnaf 0 1 833).wf = false := by decide
theorem test_wellformed_limits : (Instr.fpow2k 0 1 1).wf = true ∧ (Instr.ldc 15 8).wf = true ∧
    (Instr.sel8 13 0 1000).wf = true ∧ (Instr.selnaf 13 1 832).wf = true := by decide

/-! ## Decoding and encoding, each command by a word written out field by field (30_encoding.md R121, R122, R125) -/

theorem test_codes_sequencing :
    Codes 0b000001_0000_0000_0000_0000_0000000000 .nop ∧
    Codes 0b000010_0000_0000_0000_0000_0000000000 .halt ∧
    Codes 0b000011_0001_1110_0000_0000_0000000000 (.mov 1 14) ∧
    Codes 0b000100_1111_0000_0000_0000_0000001000 (.ldc 15 8) := by unfold Codes; decide

theorem test_codes_conditional :
    Codes 0b000101_0000_0001_0010_0011_0000000000 (.csel 0 1 2 3) ∧
    Codes 0b000110_0001_0010_0011_0000_0000000000 (.cswap 1 2 3) := by unfold Codes; decide

theorem test_codes_field :
    Codes 0b001000_0000_0001_0010_0000_0000000000 (.fadd 0 1 2) ∧
    Codes 0b001001_1000_0100_0010_0000_0000000000 (.fsub 8 4 2) ∧
    Codes 0b001010_0111_1000_0000_0000_0000000000 (.fneg 7 8) ∧
    Codes 0b001011_0100_0000_0001_0000_0000000000 (.fmul 4 0 1) ∧
    Codes 0b001100_0101_1010_0000_0000_0000000000 (.fsqr 5 10) ∧
    Codes 0b001101_0110_0001_0000_0000_0000000000 (.fsqr2 6 1) ∧
    Codes 0b001110_1000_0011_0000_0000_1111111111 (.fpow2k 8 3 1023) ∧
    Codes 0b001111_0000_0001_0000_0000_0000000000 (.ffromb 0 1) ∧
    Codes 0b010000_0001_0000_0000_0000_0000000000 (.fchk 1 0) := by unfold Codes; decide

theorem test_codes_scalar :
    Codes 0b011000_0110_0101_0011_0000_0000000000 (.sadd 6 5 3) ∧
    Codes 0b011001_0000_0001_0010_0000_0000000000 (.ssub 0 1 2) ∧
    Codes 0b011010_0000_0001_0000_0000_0000000000 (.sneg 0 1) ∧
    Codes 0b011011_0101_0100_0011_0000_0000000000 (.smul 5 4 3) ∧
    Codes 0b011100_1010_0000_0000_0000_0000000000 (.ssqr 10 0) ∧
    Codes 0b011101_0011_0000_0000_0000_0000000000 (.sred 3 0) ∧
    Codes 0b011110_0010_0000_0001_0000_0000000000 (.sredw 2 0 1) ∧
    Codes 0b011111_0011_0001_0000_0000_0000000000 (.stom 3 1) ∧
    Codes 0b100000_0101_0100_0000_0000_0000000000 (.sfromm 5 4) ∧
    Codes 0b100001_0100_0010_0011_0000_0000000000 (.smmul 4 2 3) ∧
    Codes 0b100010_1000_0010_0000_0000_0000000000 (.smsqr 8 2) := by unfold Codes; decide

theorem test_codes_tables :
    Codes 0b101000_1101_0000_0000_0000_1111101000 (.sel8 13 0 1000) ∧
    Codes 0b101001_1101_0001_0000_0000_1101000000 (.selnaf 13 1 832) := by unfold Codes; decide

/-- T125 to T131: opcodes outside the map. -/
theorem test_decode_illegalOpcode :
    decode 0x00000000 = .error .illegalOpcode ∧
    decode 0xffffffff = .error .illegalOpcode ∧
    decode 0x1c000000 = .error .illegalOpcode ∧
    decode 0x44000000 = .error .illegalOpcode ∧
    decode 0x8c000000 = .error .illegalOpcode ∧
    decode 0xa8000000 = .error .illegalOpcode ∧
    decode 0xfc000000 = .error .illegalOpcode := by decide

/-- T132 to T139: a must-be-zero bit. -/
theorem test_decode_mustBeZero :
    decode 0x04000001 = .error .illegalField ∧
    decode 0x08400000 = .error .illegalField ∧
    decode 0x0c040001 = .error .illegalField ∧
    decode 0x0c048000 = .error .illegalField ∧
    decode 0x20048001 = .error .illegalField ∧
    decode 0x14048c01 = .error .illegalField ∧
    decode 0x38040401 = .error .illegalField ∧
    decode 0x10040001 = .error .illegalField := by decide

/-- T32, T140 to T144: a value constraint. -/
theorem test_decode_valueConstraint :
    decode 0x38040000 = .error .illegalField ∧
    decode 0x10000009 = .error .illegalField ∧
    decode 0xa3800000 = .error .illegalField ∧
    decode 0xa00003e9 = .error .illegalField ∧
    decode 0xa4040341 = .error .illegalField ∧
    decode 0xa7840000 = .error .illegalField := by decide

/-- The host's numbering of a word's bits. -/
theorem test_decodeTableWord : decodeTableWord 32 0x2c048000 = some (.fmul 0 1 2) ∧ decodeTableWord 32 0x38040000 = none := by
  decide

/-! ## NOP, HALT, MOV, LDC (T85 to T98) -/

/-- R286: only CP and CMD_COUNT. -/
theorem test_nop : exec .nop running = .next { running with cp := 1, cmdCount := 1 } := rfl

/-- R287. -/
theorem test_halt : exec .halt running = .next { running with cp := 1, cmdCount := 1, busy := false, done := true } := rfl

/-- T96: every value is copied. -/
theorem test_mov : result (.mov 0 1) [(1, BitVec.allOnes 256)] 0 = some (BitVec.allOnes 256) := by decide

/-- T90, T95. -/
theorem test_ldc : result (.ldc 0 5) [] 0 = some 0x1000000000000000000000000000000014def9dea2f79cd65812631a5cf5d3ed ∧
    result (.ldc 15 8) [] 15 = some 0x0ffffffffffffffffffffffffffffffec6ef5bf4737dcf70d6ec31748d98951d := by decide

/-! ## CSEL, CSWAP (T36 to T46, T148) -/

/-- T36, T37. -/
theorem test_csel : result (.csel 0 1 2 3) [(1, 5), (2, 9), (3, 1)] 0 = some 9 ∧
    result (.csel 0 1 2 3) [(1, 5), (2, 9), (3, 0)] 0 = some 5 := by decide

/-- T38, T39. -/
theorem test_csel_badChoice : causeOf (.csel 0 1 2 3) [(1, 5), (2, 9), (3, 2)] = some .badChoice ∧
    causeOf (.csel 0 1 2 3) [(1, 5), (2, 9), (3, 1 <<< 255)] = some .badChoice := by decide

/-- T44: the choice register is one of those exchanged. -/
theorem test_cswap : result (.cswap 1 2 1) [(1, 1), (2, 9)] 1 = some 9 ∧ result (.cswap 1 2 1) [(1, 1), (2, 9)] 2 = some 1 := by
  decide

/-- T45, T46. -/
theorem test_cswap_same : result (.cswap 1 1 3) [(1, 5), (3, 1)] 1 = some 5 ∧
    causeOf (.cswap 1 2 3) [(1, 5), (2, 9), (3, 3)] = some .badChoice := by decide

/-! ## The field unit (T1 to T35) -/

/-- p − 1. -/
def pm1 : Word := 0x7fffffffffffffffffffffffffffffffffffffffffffffffffffffffffffffec

/-- p. -/
def pp : Word := 0x7fffffffffffffffffffffffffffffffffffffffffffffffffffffffffffffed

/-- 2^200 + 7. -/
def x200 : Word := 0x0000000000000100000000000000000000000000000000000000000000000007

/-- T1, T3. -/
theorem test_fadd : result (.fadd 0 1 2) [(1, pm1), (2, 1)] 0 = some 0 ∧
    result (.fadd 0 1 1) [(1, 0x4000000000000000000000000000000000000000000000000000000000000000)] 0 = some 0x13 := by decide

/-- Section 2.6, row (0, 1), and T9. -/
theorem test_fsub : result (.fsub 0 1 2) [(2, 1)] 0 = some pm1 ∧
    causeOf (.fsub 0 1 2) [(1, 1), (2, pp)] = some .noncanonicalFe := by decide

/-- T10, T12. -/
theorem test_fneg : result (.fneg 0 1) [] 0 = some 0 ∧
    result (.fneg 0 1) [(1, x200)] 0 = some 0x7ffffffffffffeffffffffffffffffffffffffffffffffffffffffffffffffe6 := by decide

/-- T14, T16. -/
theorem test_fmul : result (.fmul 0 1 2) [(1, 1 <<< 128), (2, 1 <<< 128)] 0 = some 0x26 ∧
    result (.fmul 0 1 2) [(1, x200), (2, 0x5a4653ca673768565b41f775d6947d55cf3813d1)] 0 =
      some 0x147d55cf3813d1000000000277ec4a88d283e7c2ef3dcf8b178c3ee47544088e := by decide

/-- T19. -/
theorem test_fsqr : result (.fsqr 0 1) [(1, x200)] 0 =
    some 0x0000000000000e00000000000026000000000000000000000000000000000031 := by decide

/-- T20, T21. -/
theorem test_fsqr2 : result (.fsqr2 0 1) [(1, pm1)] 0 = some 2 ∧ result (.fsqr2 0 1) [(1, x200)] 0 =
    some 0x0000000000001c0000000000004c000000000000000000000000000000000062 := by decide

/-- T22, T24. -/
theorem test_fpow2k : result (.fpow2k 0 1 8) [(1, 2)] 0 = some 0x26 ∧ result (.fpow2k 0 1 5) [(1, x200)] 0 =
    some 0x209e8275e915f3f5c5a94c84fcb2865fef6c6d781545bb48a1baf6aa5a2b7e4b := by decide

/-- T25, T27. -/
theorem test_ffromb : result (.ffromb 0 1) [(1, BitVec.allOnes 256)] 0 = some 0x12 ∧
    result (.ffromb 0 1) [(1, 0x8000000000000000000000000000000000000000000000000000000000000005)] 0 = some 5 := by decide

/-- T33, T34. -/
theorem test_fchk : result (.fchk 0 1) [(1, pm1)] 0 = some pm1 ∧ causeOf (.fchk 0 1) [(1, pp)] = some .noncanonicalFe := by
  decide

/-! ## The scalar unit (T47 to T84) -/

/-- L − 1. -/
def lm1 : Word := 0x1000000000000000000000000000000014def9dea2f79cd65812631a5cf5d3ec

/-- R mod L, the Montgomery form of 1. -/
def rModL : Word := 0x0fffffffffffffffffffffffffffffd656eb3c98b3bdf026334c2e60714df9ed

/-- T48, T49. -/
theorem test_sadd : result (.sadd 0 1 2) [(1, lm1), (2, lm1)] 0 =
      some 0x1000000000000000000000000000000014def9dea2f79cd65812631a5cf5d3eb ∧
    causeOf (.sadd 0 1 2) [(1, 0x1000000000000000000000000000000014def9dea2f79cd65812631a5cf5d3ed)] = some .noncanonicalSc := by
  decide

/-- T50, T51. -/
theorem test_ssub : result (.ssub 0 1 2) [(2, 1)] 0 = some lm1 ∧ result (.ssub 0 1 1) [(1, lm1)] 0 = some 0 := by decide

/-- T53, T54. -/
theorem test_sneg : result (.sneg 0 1) [] 0 = some 0 ∧ result (.sneg 0 1) [(1, 1)] 0 = some lm1 := by decide

/-- T57. -/
theorem test_smul : result (.smul 0 1 2) [(1, 1 <<< 128), (2, 1 <<< 128)] 0 =
    some 0x0ffffffffffffffffffffffffffffffec6ef5bf4737dcf70d6ec31748d98951d := by decide

/-- T60, T61. -/
theorem test_ssqr : result (.ssqr 0 1) [(1, lm1)] 0 = some 1 ∧
    causeOf (.ssqr 0 1) [(1, BitVec.allOnes 256)] = some .noncanonicalSc := by decide

/-- T64. -/
theorem test_sred : result (.sred 0 1) [(1, BitVec.allOnes 256)] 0 =
    some 0x0ffffffffffffffffffffffffffffffec6ef5bf4737dcf70d6ec31748d98951c := by decide

/-- T67, T68: the second operand is the high half. -/
theorem test_sredw : result (.sredw 0 1 2) [(1, BitVec.allOnes 256), (2, BitVec.allOnes 256)] 0 =
      some 0x0399411b7c309a3dceec73d217f5be65d00e1ba768859347a40611e3449c0f00 ∧
    result (.sredw 0 1 2) [(2, 1)] 0 = some 0x0ffffffffffffffffffffffffffffffec6ef5bf4737dcf70d6ec31748d98951d := by decide

/-- T74. -/
theorem test_stom : result (.stom 0 1) [(1, BitVec.allOnes 256)] 0 =
    some 0x0328236f861347b9dd8e7a42feb7cce32d9e5d1c8b26cbc83d07bb69f470eea5 := by decide

/-- T76, T77. -/
theorem test_sfromm : result (.sfromm 0 1) [(1, rModL)] 0 = some 1 ∧
    result (.sfromm 0 1) [(1, 0x0328236f861347b9dd8e7a42feb7cce32d9e5d1c8b26cbc83d07bb69f470eea5)] 0 =
      some 0x0ffffffffffffffffffffffffffffffec6ef5bf4737dcf70d6ec31748d98951c := by decide

/-- T80: the forms of 2 and 3 give the form of 6. -/
theorem test_smmul : result (.smmul 0 1 2)
    [(1, 0x0fffffffffffffffffffffffffffffac98f77f52c48443760e85f9a685a61fed),
      (2, 0x0fffffffffffffffffffffffffffff82db03c20cd54a96c5e9bfc4ec99fe45ed)] 0 =
    some 0x0fffffffffffffffffffffffffffff05a1288a3b079d90b57b6d26bed706b7ed := by decide

/-- T82, T83. -/
theorem test_smsqr : result (.smsqr 0 1) [(1, rModL)] 0 = some rModL ∧
    result (.smsqr 0 1) [(1, 0x0fffffffffffffffffffffffffffffac98f77f52c48443760e85f9a685a61fed)] 0 =
      some 0x0fffffffffffffffffffffffffffff591d1004c6e610ea15c4f99032ae566bed := by decide

/-! ## Table selects (T99 to T124, on the TMEM image of section 2.5) -/

/-- The image of section 2.5. -/
def image (e : Nat) : Nat :=
  if e < 24 then 100 * (e / 3 + 1) + (e % 3 + 1) else 10000 + 10 * ((e - 24) / 3) + (e % 3 + 1)

theorem image_canonical (e : Nat) (h : e < 216) : ((tableState image 216).tread e).toNat < Config.p := by
  have hi : image e < 20000 := by unfold image; split <;> omega
  rw [tableState_tread _ _ _ h, BitVec.toNat_ofNat, Nat.mod_eq_of_lt (by omega)]
  exact Nat.lt_trans hi (by decide)

/-- The image with a digit in V3. -/
def withDigit (d : Word) : State := (tableState image 216).setReg 3 d

theorem withDigit_tread (d : Word) (e : Nat) (h : e < 216) : (withDigit d).tread e = BitVec.ofNat 256 (image e) :=
  tableState_tread image 216 e h

theorem sel8_withDigit (d : Word) (h : ¬ (digit 3 (withDigit d) < -8 ∨ 8 < digit 3 (withDigit d))) :
    exec (.sel8 0 3 0) (withDigit d) = .next (State.retire false ((withDigit d).setPoint 0
      (selected (withDigit d) (digit 3 (withDigit d)) (digit 3 (withDigit d)).natAbs 1 8 0))) :=
  exec_sel8_ok _ 0 3 0 (by decide) h fun k hk => image_canonical _ (by simp; omega)

theorem selnaf_withDigit (d : Word) (h : ¬ (digit 3 (withDigit d) % 2 = 0 ∨ digit 3 (withDigit d) < -127)) :
    exec (.selnaf 0 3 24) (withDigit d) = .next (State.retire false ((withDigit d).setPoint 0
      (selected (withDigit d) (digit 3 (withDigit d)) (((digit 3 (withDigit d)).natAbs - 1) / 2) 0 64 24))) :=
  exec_selnaf_ok _ 0 3 24 (by decide) h fun k hk => image_canonical _ (by
    show 24 + k < 216
    omega)

/-- T101: the digit −3 selects point 3 negated. -/
theorem test_sel8 : ∃ t, exec (.sel8 0 3 0) (withDigit 0xfd) = .next t ∧ t.reg 0 = 0x12e ∧ t.reg 1 = 0x12d ∧
    t.reg 2 = 0x7ffffffffffffffffffffffffffffffffffffffffffffffffffffffffffffebe := by
  have hd : digit 3 (withDigit 0xfd) = -3 := by decide
  refine ⟨_, sel8_withDigit 0xfd (by rw [hd]; decide), ?_⟩
  rw [hd]
  simp only [retire_reg, setPoint_reg _ 0 _ (by decide : (0 : Reg).val ≤ 13)]
  simp only [selected, State.pointAt, Point.neg, withDigit_tread 0xfd 6 (by omega), withDigit_tread 0xfd 7 (by omega),
    withDigit_tread 0xfd 8 (by omega), show ((-3 : Int)).natAbs = 3 by decide]
  decide

/-- T106, T107, T108: digits outside [−8, 8]. -/
theorem test_sel8_badDigit : causeOf (.sel8 0 3 0) [(3, 9)] = some .badDigit ∧
    causeOf (.sel8 0 3 0) [(3, 0x80)] = some .badDigit ∧ causeOf (.sel8 0 3 0) [(3, 0xf7)] = some .badDigit := by decide

/-- T114: the digit 127 selects the last point. -/
theorem test_selnaf : ∃ t, exec (.selnaf 0 3 24) (withDigit 0x7f) = .next t ∧ t.reg 0 = 0x2987 ∧ t.reg 1 = 0x2988 ∧
    t.reg 2 = 0x2989 := by
  have hd : digit 3 (withDigit 0x7f) = 127 := by decide
  refine ⟨_, selnaf_withDigit 0x7f (by rw [hd]; decide), ?_⟩
  rw [hd]
  simp only [retire_reg, setPoint_reg _ 0 _ (by decide : (0 : Reg).val ≤ 13)]
  simp only [selected, State.pointAt, withDigit_tread 0x7f 213 (by omega), withDigit_tread 0x7f 214 (by omega),
    withDigit_tread 0x7f 215 (by omega), show ((127 : Int)).natAbs = 127 by decide]
  decide

/-- T118 to T121: even digits, 0x80 among them. -/
theorem test_selnaf_badDigit :
    causeOf (.selnaf 0 3 24) [(3, 0)] = some .badDigit ∧
    causeOf (.selnaf 0 3 24) [(3, 2)] = some .badDigit ∧
    causeOf (.selnaf 0 3 24) [(3, 0x80)] = some .badDigit ∧
    causeOf (.selnaf 0 3 24) [(3, 0xfe)] = some .badDigit := by decide

/-! ## The step (44_sequencing.md R280 to R285, 60_exceptions.md R303) -/

/-- The command LDC v0, 1 (T86) is the first command after reset. -/
theorem test_step_retires : (after (State.reset.withFetchWord 32 0x10000001)).reg 0 = 1 ∧
    (after (State.reset.withFetchWord 32 0x10000001)).cp = 1 ∧
    (after (State.reset.withFetchWord 32 0x10000001)).cmdCount = 1 ∧
    (after (State.reset.withFetchWord 32 0x10000001)).busy = true := by decide +kernel

/-- T127: a reserved opcode enters the fault state. -/
theorem test_step_faults : (after (State.reset.withFetchWord 32 0x1c000000)).faultCauseWord = 0x00000001 ∧
    (after (State.reset.withFetchWord 32 0x1c000000)).faultCmd = 0x1c000000 ∧
    (after (State.reset.withFetchWord 32 0x1c000000)).busy = false ∧
    (after (State.reset.withFetchWord 32 0x1c000000)).cp = 0 := by decide +kernel

/-- R281, R302: CP = 256 is past the end of IMEM, and no word is recorded. -/
theorem test_step_cpRange : (after { running with cp := 256 }).faultCauseWord = 0x01000003 ∧
    (after { running with cp := 256 }).faultCmd = 0 ∧ (after { running with cp := 256 }).fault = true := by decide +kernel

/-- R285: SINGLE_STEP stops the run after one command. -/
theorem test_step_singleStep :
    (after (State.withFetchWord { State.reset with singleStep := true } 32 0x04000000)).busy = false ∧
    (after (State.withFetchWord { State.reset with singleStep := true } 32 0x04000000)).done = true ∧
    (after (State.withFetchWord { State.reset with singleStep := true } 32 0x04000000)).cp = 1 := by decide +kernel

/-- R280: an idle core does nothing. -/
theorem test_step_idle : step State.reset = .next State.reset := rfl

/-! ## The host window (20_memory.md R81 to R92, 10_state.md R40 to R47) -/

/-- H1: ID, and a control register's own offset. -/
theorem test_window_id : (busAccess ⟨4, 0x000, .read⟩ State.reset).2 = .data 0x25510700 ∧
    (busAccess ⟨4, 0x008, .read⟩ running).2 = .data 0x00000001 := by decide

/-- R82: word 7 of V15 is its top word. -/
theorem test_window_v :
    (busAccess ⟨4, 0x5FC, .write 0x80000001⟩ State.reset).1.reg 15 = BitVec.ofNat 256 (0x80000001 * 2 ^ 224) ∧
    (busAccess ⟨4, 0x5FC, .read⟩ (setRegs [(15, BitVec.ofNat 256 (0x80000001 * 2 ^ 224))] State.reset)).2 =
      .data 0x80000001 := by decide

/-- R88: the least significant byte of a word has the lowest offset. -/
theorem test_window_imem :
    (busAccess ⟨4, 0x1000, .write 0x2c048000⟩ State.reset).1.mem =
      [(0x1000, 0x00), (0x1001, 0x80), (0x1002, 0x04), (0x1003, 0x2c)] ∧
    ((busAccess ⟨4, 0x1000, .write 0x2c048000⟩ State.reset).1.iread 0 = 0x2c048000) := by decide +kernel

/-- R84, R85, R86: wrong width, misaligned, unmapped. -/
theorem test_window_busErrors : (busAccess ⟨2, 0x000, .read⟩ State.reset).2 = .busError ∧
    (busAccess ⟨4, 0x002, .read⟩ State.reset).2 = .busError ∧ (busAccess ⟨4, 0x020, .read⟩ State.reset).2 = .busError ∧
    (busAccess ⟨4, 0x600, .read⟩ State.reset).2 = .busError ∧ (busAccess ⟨4, 0x1400, .read⟩ State.reset).2 = .busError ∧
    (busAccess ⟨4, 0x18000, .read⟩ State.reset).2 = .busError := by decide

/-- R91: a running core refuses V and sets ACCESS_ERR, and still answers STATUS. -/
theorem test_window_refused : (busAccess ⟨4, 0x400, .read⟩ (setRegs [(0, 5)] running)).2 = .data 0 ∧
    (busAccess ⟨4, 0x400, .read⟩ running).1.accessErr = true ∧
    (busAccess ⟨4, 0x00C, .write 9⟩ running).1.cp = 0 ∧ (busAccess ⟨4, 0x008, .read⟩ running).1.accessErr = false := by decide

/-- R290: START is ignored while faulted; SOFT_RESET leaves the fault state (R307). -/
theorem test_window_ctrl : (busAccess ⟨4, 0x004, .write 1⟩ (running.raise .badDigit)).1.busy = false ∧
    (busAccess ⟨4, 0x004, .write 1⟩ State.reset).1.busy = true ∧
    (busAccess ⟨4, 0x004, .write 2⟩ (running.raise .badDigit)).1.fault = false := by decide +kernel

/-- R42, R311: writing 1 to DONE clears it and with it the interrupt. -/
theorem test_window_status : (busAccess ⟨4, 0x008, .write 2⟩ { State.reset with done := true, irqEn := true }).1.irq = false ∧
    State.irq { State.reset with done := true, irqEn := true } = true := by decide

/-- R44, R301: FAULT_CAUSE of a fault at index 5. -/
theorem test_window_faultCause : State.faultCauseWord { State.reset with cause := some .noncanonicalFe, fcp := 5 } = 0x00050007 := by
  decide

/-! ## The assembly language (30_encoding.md R140, R141) -/

theorem test_assembly : readLine "loop: fpow2k v8, v0, 0x5 ; five squarings" = some (.command (.fpow2k 8 0 5)) ∧
    readLine "LDC v10, R_MOD_L" = some (.command (.ldc 10 6)) ∧ readLine "FPOW2K v0, v1, 0" = none ∧
    readLine "SELBP v4, v3, 31" = some (.command (.sel8 4 3 744)) ∧ readLine ".org 255" = some (.org 255) := by
  decide +kernel

theorem test_layout : layout 0 [.command .nop, .org 255, .word 0xffffffff] = some [(0, 0x04000000), (255, 0xffffffff)] := by
  decide

/-- The model's choice (log 15): no word goes past index 255. -/
theorem test_layout_pastEnd : layout 0 [.org 256, .command .nop] = none ∧
    layout 0 [.org 255, .command .nop, .word 0] = none := by decide

/-! ## Witnesses: the hypotheses of the obligations can be met, at the ends of their ranges -/

/-- A running core about to execute a word at CP 0. -/
def about (w : Nat) : State := State.reset.withFetchWord 32 w

theorem witness_SoftResetClearsAllButArrays : (0x00000002 : Word32).getLsbD 1 = true ∧ (0xffffffff : Word32).getLsbD 1 = true := by
  decide

theorem witness_DecodeOfEncode : (Instr.selnaf 13 1 832).wf = true ∧ (Instr.fpow2k 0 0 1023).wf = true ∧ Instr.nop.wf = true := by
  decide

theorem witness_EncodeOfDecode : decode 0xA7440340 = .ok (.selnaf 13 1 832) := by decide

theorem witness_DecodeFaultsExactly_reserved :
    (0x00000000 : Word32).toNat / 2 ^ 26 = 0x00 ∧ (0x1c000000 : Word32).toNat / 2 ^ 26 = 0x07 ∧
    (0x44000000 : Word32).toNat / 2 ^ 26 = 0x11 ∧ (0x5c000000 : Word32).toNat / 2 ^ 26 = 0x17 ∧
    (0x8c000000 : Word32).toNat / 2 ^ 26 = 0x23 ∧ (0x9c000000 : Word32).toNat / 2 ^ 26 = 0x27 ∧
    (0xa8000000 : Word32).toNat / 2 ^ 26 = 0x2A ∧ (0xffffffff : Word32).toNat / 2 ^ 26 = 0x3F := by decide

theorem witness_DecodeFaultsExactly_mustBeZero :
    commandOf 0x0c040001 = some (.mov 0 1) ∧ (0x0c040001 : Word32) &&& Format.r1.mbz ≠ 0 := by decide

theorem witness_DecodeFaultsExactly_constraint :
    commandOf 0x38040000 = some (.fpow2k 0 1 0) ∧ (0x38040000 : Word32) &&& Format.i.mbz = 0 ∧
    (Instr.fpow2k 0 1 0).wf = false := by decide

theorem witness_DecodeFaultsExactly_decodes :
    commandOf 0x380403ff = some (.fpow2k 0 1 1023) ∧ (0x380403ff : Word32) &&& Format.i.mbz = 0 ∧
    (Instr.fpow2k 0 1 1023).wf = true := by decide

theorem witness_StepRunsDecodedCommand : (about 0x10000001).busy = true ∧ (about 0x10000001).cp.toNat < 256 ∧
    decode ((about 0x10000001).iread (about 0x10000001).cp.toNat) = .ok (.ldc 0 1) ∧ (about 0x10000001).agenda = [] := by
  decide +kernel

theorem witness_StepRunsDecodedCommand_turn :
    let s := State.withFetchWord { State.reset with cp := 255, agenda := [.powerOn] } 32 0x10000001
    s.busy = true ∧ s.cp.toNat = 255 ∧ decode (s.iread s.cp.toNat) = .ok (.ldc 0 1) ∧ s.agenda = [.sequencer, .powerOn] := by
  decide +kernel

theorem witness_FetchPastEndFaults : (State.cp { running with cp := 255 }).toNat < 256 ∧
    256 ≤ (State.cp { running with cp := 256 }).toNat ∧ 256 ≤ (State.cp { running with cp := 511 }).toNat ∧
    running.busy = true ∧ running.agenda = [] ∧
    State.agenda { running with cp := 256, agenda := [.sequencer, .powerOn] } = .sequencer :: [.powerOn] := by decide

/-- At index 255 some command retires and some command faults, so both sides of the second clause's premise occur. -/
theorem witness_FetchPastEndFaults_last : (State.cp { running with cp := 255 }).toNat = 255 ∧
    State.fault { running with cp := 255 } = false ∧
    (∃ t, exec .nop { running with cp := 255 } = .next t ∧ t.fault = false ∧ t.cp = 256) ∧
    ∃ t, exec (.fpow2k 0 1 0) { running with cp := 255 } = .next t ∧ t.fault = true :=
  ⟨rfl, rfl, ⟨_, rfl, rfl, rfl⟩, ⟨_, rfl, rfl⟩⟩

theorem witness_IllegalWordFaults_opcode : (about 0).busy = true ∧ (about 0).agenda = [] ∧ (about 0).cp.toNat < 256 ∧
    decode ((about 0).iread (about 0).cp.toNat) = .error .illegalOpcode := by decide +kernel

theorem witness_IllegalWordFaults_field :
    decode ((about 0x04000001).iread (about 0x04000001).cp.toNat) = .error .illegalField := by decide +kernel

theorem witness_IdleSequencerDoesNothing : State.reset.busy = false ∧ State.reset.agenda = [] ∧
    State.agenda { State.reset with agenda := [.sequencer] } = .sequencer :: [] := by decide

theorem witness_OtherAgentsTakeTheirTurn :
    State.agenda { State.reset with agenda := [.host ⟨4, 0, .read⟩] } = .host ⟨4, 0, .read⟩ :: [] ∧
    State.agenda { State.reset with agenda := [.powerOn] } = .powerOn :: [] := by decide

theorem witness_NopOnlyRetires : (0x04000001 : Word32).toNat / 2 ^ 26 = 0x01 ∧ (0x04000001 : Word32) ≠ 0x04000000 := by decide

theorem witness_HaltRetiresAndStops : (0x08400000 : Word32).toNat / 2 ^ 26 = 0x02 ∧ (0x08400000 : Word32) ≠ 0x08000000 := by
  decide

/-- The premise holds of CP_RANGE at 256 and 511 and of every other cause at 0 and 255. -/
theorem witness_FaultEntryRecord :
    (Cause.cpRange = .cpRange ↔ 256 ≤ (State.cp { running with cp := 256 }).toNat) ∧
    (Cause.cpRange = .cpRange ↔ 256 ≤ (State.cp { running with cp := 511 }).toNat) ∧
    (∀ c ∈ [Cause.illegalOpcode, .illegalField, .badChoice, .badDigit, .noncanonicalSc, .noncanonicalFe],
      (c = .cpRange ↔ 256 ≤ (State.cp { running with cp := 0 }).toNat) ∧
      (c = .cpRange ↔ 256 ≤ (State.cp { running with cp := 255 }).toNat)) := by decide

theorem witness_LdcLoadsRom : 8 < (9 : Imm).val ∧ 8 < (1023 : Imm).val := by decide

theorem witness_CselSelectsByChoice : (setRegs [(3, 0)] running).num 3 = 0 ∧ (setRegs [(3, 1)] running).num 3 = 1 ∧
    2 ≤ (setRegs [(3, 2)] running).num 3 ∧ 2 ≤ (setRegs [(3, BitVec.allOnes 256)] running).num 3 := by decide

theorem witness_CswapSwapsByChoice : (setRegs [(1, 0)] running).num 1 = 0 ∧ (setRegs [(1, 1)] running).num 1 = 1 ∧
    2 ≤ (setRegs [(1, 2)] running).num 1 := by decide

/-- The operands of every field command: p − 1 is legal, p is not. -/
theorem witness_fieldOperands : (setRegs [(1, pm1), (2, pm1)] running).num 1 < Config.p ∧
    (setRegs [(1, pm1), (2, pm1)] running).num 2 < Config.p ∧ running.num 1 = 0 ∧
    Config.p ≤ (setRegs [(1, pp)] running).num 1 ∧ Config.p ≤ (setRegs [(2, pp)] running).num 2 := by decide

/-- The operands of every scalar command: L − 1 is legal, L is not. -/
theorem witness_scalarOperands : (setRegs [(1, lm1), (2, lm1)] running).num 1 < Config.L ∧
    (setRegs [(1, lm1), (2, lm1)] running).num 2 < Config.L ∧ running.num 1 = 0 ∧
    Config.L ≤ (setRegs [(1, BitVec.ofNat 256 Config.L)] running).num 1 ∧
    Config.L ≤ (setRegs [(2, BitVec.allOnes 256)] running).num 2 := by decide

theorem witness_FieldPow2kResult : 1 ≤ (1 : Imm).val ∧ 1 ≤ (1023 : Imm).val ∧ (0 : Imm).val = 0 ∧
    (setRegs [(1, pm1)] running).num 1 < Config.p ∧ Config.p ≤ (setRegs [(1, pp)] running).num 1 := by decide

/-- FFROMB answers a next state, so its last clause speaks of one. -/
theorem witness_FieldFromBytesResult : ∃ t, exec (.ffromb 0 1) (setRegs [(1, BitVec.allOnes 256)] running) = .next t := ⟨_, rfl⟩

/-- The inverse of R modulo L that the Montgomery statements speak of. -/
theorem witness_MontgomeryConversionResults : rInvModL < Config.L ∧ Config.R * rInvModL % Config.L = 1 := by decide

theorem witness_MontgomeryMulSquareResults : rInvModL < Config.L ∧ Config.R * rInvModL % Config.L = 1 ∧
    (setRegs [(1, rModL), (2, lm1)] running).num 1 < Config.L ∧ (setRegs [(1, rModL), (2, lm1)] running).num 2 < Config.L ∧
    Config.L ≤ (setRegs [(1, BitVec.ofNat 256 Config.L)] running).num 1 := by decide

theorem witness_Sel8SelectsPoint_fields : 13 < (14 : Reg).val ∧ 1024 < (1001 : Imm).val + 24 ∧ (13 : Reg).val ≤ 13 ∧
    (1000 : Imm).val + 24 ≤ 1024 := by decide

/-- Low bytes: 0x09, 0xf7 and 0x80 are outside the domain; 0x00, 0x01, 0x08, 0xff and 0xf8 are its ends. -/
theorem witness_Sel8SelectsPoint_digits :
    let m := fun b : Nat => if b < 128 then b else 256 - b
    8 < m 0x09 ∧ 8 < m 0xf7 ∧ 8 < m 0x80 ∧ m 0x00 = 0 ∧ m 0x01 = 1 ∧ m 0x08 = 8 ∧ m 0xff = 1 ∧ m 0xf8 = 8 ∧
    (withDigit 0xf8).num 3 % 256 = 0xf8 ∧ (withDigit 0x100).num 3 % 256 = 0 := by
  refine ⟨by decide, by decide, by decide, by decide, by decide, by decide, by decide, by decide, ?_, ?_⟩ <;>
    (simp only [State.num, withDigit, setReg_reg_self]; decide)

theorem witness_Sel8SelectsPoint_canonical (d : Word) :
    ∀ k < 24, ((withDigit d).tread ((0 : Imm).val + k)).toNat < Config.p := fun k hk =>
  image_canonical _ (by simp; omega)

/-- The image with entry 23 equal to p (T122). -/
def badImage (e : Nat) : Nat := if e = 23 then Config.p else image e

theorem witness_Sel8SelectsPoint_notCanonical :
    ¬ ∀ k < 24, (((tableState badImage 216).setReg 3 1).tread ((0 : Imm).val + k)).toNat < Config.p := by
  intro h
  have h := h 23 (by omega)
  rw [show ((tableState badImage 216).setReg 3 1).tread ((0 : Imm).val + 23) = BitVec.ofNat 256 (badImage 23) from
    tableState_tread badImage 216 23 (by omega)] at h
  revert h
  decide

theorem witness_SelnafSelectsPoint_fields : 13 < (14 : Reg).val ∧ 1024 < (833 : Imm).val + 192 ∧ (13 : Reg).val ≤ 13 ∧
    (832 : Imm).val + 192 ≤ 1024 := by decide

/-- Low bytes: 0x00 and 0x80 are even; 0x01, 0x7f, 0x81 and 0xff are the ends of the odd ones. -/
theorem witness_SelnafSelectsPoint_digits : 0x00 % 2 = 0 ∧ 0x80 % 2 = 0 ∧ (0x01 % 2 = 1 ∧ 0x01 < 128) ∧
    (0x7f % 2 = 1 ∧ 0x7f < 128) ∧ (0x81 % 2 = 1 ∧ 128 ≤ 0x81) ∧ (0xff % 2 = 1 ∧ 128 ≤ 0xff) ∧
    (withDigit 0x81).num 3 % 256 = 0x81 := by
  refine ⟨by decide, by decide, by decide, by decide, by decide, by decide, ?_⟩
  simp only [State.num, withDigit, setReg_reg_self]
  decide

theorem witness_SelnafSelectsPoint_canonical (d : Word) :
    ∀ k < 192, ((withDigit d).tread ((24 : Imm).val + k)).toNat < Config.p := fun k hk =>
  image_canonical _ (by
    show 24 + k < 216
    omega)

/-- The image with entry 215, the last of the NAF table, equal to 2^256 − 1 (T124). -/
def badNafImage (e : Nat) : Nat := if e = 215 then 2 ^ 256 - 1 else image e

theorem witness_SelnafSelectsPoint_notCanonical :
    ¬ ∀ k < 192, (((tableState badNafImage 216).setReg 3 1).tread ((24 : Imm).val + k)).toNat < Config.p := by
  intro h
  have h := h 191 (by omega)
  rw [show ((tableState badNafImage 216).setReg 3 1).tread ((24 : Imm).val + 191) = BitVec.ofNat 256 (badNafImage 215) from
    tableState_tread badNafImage 216 215 (by omega)] at h
  revert h
  decide

theorem witness_EveryCommandRetiresOrFaults : State.singleStep { running with singleStep := true } = true ∧
    running.singleStep = false ∧ (5 : Reg) ∉ (Instr.fadd 0 1 2).dests ∧ Instr.nop ≠ .halt := by decide

theorem witness_IllegalFieldsFault : (Instr.ldc 0 9).wf = false ∧ (Instr.fpow2k 0 1 0).wf = false ∧
    (Instr.sel8 14 0 0).wf = false ∧ (Instr.sel8 0 0 1001).wf = false ∧ (Instr.selnaf 0 1 833).wf = false := by decide

theorem witness_ResultsDependOnReadsOnly : ∃ t t', (∀ r ∈ (Instr.fadd 0 1 2).sources, running.reg r =
      (setRegs [(3, 5)] running).reg r) ∧ exec (.fadd 0 1 2) running = .next t ∧
    exec (.fadd 0 1 2) (setRegs [(3, 5)] running) = .next t' ∧
    (∀ e ∈ (Instr.sel8 0 3 1000).tableReads, (withDigit 1).tread e = ((withDigit 1).setReg 9 7).tread e) :=
  ⟨_, _, by decide, rfl, rfl, fun _ _ => rfl⟩

theorem witness_ResultsAreCanonical_field : ∃ t, running.fault = false ∧ exec (.fadd 0 1 2) running = .next t ∧
    t.fault = false ∧ 0x08 ≤ (Instr.fadd 0 1 2).opcode.toNat ∧ (Instr.fchk 0 1).opcode.toNat ≤ 0x10 :=
  ⟨_, rfl, rfl, by decide, by decide, by decide⟩

theorem witness_ResultsAreCanonical_scalar : ∃ t, running.fault = false ∧ exec (.smsqr 0 1) running = .next t ∧
    t.fault = false ∧ 0x18 ≤ (Instr.sadd 0 1 2).opcode.toNat ∧ (Instr.smsqr 0 1).opcode.toNat ≤ 0x22 :=
  ⟨_, rfl, rfl, by decide, by decide, by decide⟩

theorem witness_FieldLaws : (setRegs [(1, pm1)] running).num 1 < Config.p ∧ (2 : Reg) ≠ 1 ∧ (1022 : Imm).val + 1 < 1024 ∧
    1 ≤ (1 : Imm).val := by decide

theorem witness_MontgomeryLaws : (setRegs [(1, lm1), (2, lm1)] running).num 1 < Config.L ∧
    (setRegs [(1, lm1), (2, lm1)] running).num 2 < Config.L ∧ (3 : Reg) ≠ 2 ∧ (3 : Reg) ≠ 4 := by decide

theorem witness_OperandRegisterWords : 0 < 8 ∧ 7 < 8 ∧ State.reset.busy = false := by decide

theorem witness_CommandMemoryWords : 0 < 256 ∧ 255 < 256 ∧ State.reset.busy = false := by decide

theorem witness_TableMemoryWords : 0 < 1024 ∧ 1023 < 1024 ∧ 7 < 8 ∧ State.reset.busy = false := by decide

theorem witness_BusErrors_states : State.reset.busy = false ∧ running.busy = true := ⟨rfl, rfl⟩

/-- The ends of the four mapped ranges and of the holes between them. -/
theorem witness_BusErrorsExactly :
    (∀ o ∈ [0, 0x1C, 0x400, 0x5FC, 0x1000, 0x13FC, 0x10000, 0x17FFC],
      o % 4 = 0 ∧ (o < 0x20 ∨ (0x400 ≤ o ∧ o < 0x600) ∨ (0x1000 ≤ o ∧ o < 0x1400) ∨ (0x10000 ≤ o ∧ o < 0x18000))) ∧
    (∀ o ∈ [0x20, 0x3FC, 0x600, 0xFFC, 0x1400, 0xFFFC, 0x18000, 0x1FFFC],
      ¬ (o < 0x20 ∨ (0x400 ≤ o ∧ o < 0x600) ∨ (0x1000 ≤ o ∧ o < 0x1400) ∨ (0x10000 ≤ o ∧ o < 0x18000))) := by
  simp

/-- Both ends of the V, IMEM and TMEM ranges, and CP, which is in none of them. -/
theorem witness_RunningAccessRefused : running.busy = true ∧
    (∀ o ∈ [(0x400 : BitVec 17), 0x5FC], o.toNat % 4 = 0 ∧ 0x400 ≤ o.toNat ∧ o.toNat < 0x600) ∧
    (∀ o ∈ [(0x1000 : BitVec 17), 0x13FC], o.toNat % 4 = 0 ∧ 0x1000 ≤ o.toNat ∧ o.toNat < 0x1400) ∧
    (∀ o ∈ [(0x10000 : BitVec 17), 0x17FFC], o.toNat % 4 = 0 ∧ 0x10000 ≤ o.toNat ∧ o.toNat < 0x18000) ∧
    (0x00C : BitVec 17).toNat % 4 = 0 ∧ (0x00C : BitVec 17).toNat = 0x00C :=
  ⟨rfl, by simp, by simp, by simp, rfl, rfl⟩

theorem witness_HostCannotDisturbRun : running.busy = true ∧ Turn.resets (.host ⟨4, 0x004, .write 0xfffffffd⟩) = false ∧
    Turn.resets (.host ⟨4, 0x400, .write 0⟩) = false := by decide

theorem witness_StartBeginsRun : (0x00000001 : Word32).getLsbD 1 = false ∧ (0x00000001 : Word32).getLsbD 0 = true ∧
    (0x0000000c : Word32).getLsbD 1 = false ∧ (0x0000000c : Word32).getLsbD 0 = false ∧
    State.reset.busy = false ∧ State.reset.fault = false ∧ running.busy = true ∧ (running.raise .cpRange).fault = true := by
  refine ⟨by decide, by decide, by decide, by decide, rfl, rfl, rfl, rfl⟩

theorem witness_CommandPointerRegister : State.reset.busy = false ∧ running.busy = true := ⟨rfl, rfl⟩

theorem running_inv : running.Inv := ⟨reset_memory_wf, by decide, by decide, by decide, by decide, by decide⟩

theorem witness_StepKeepsSound : running.Inv ∧ ∃ t, step running = .next t := by
  refine ⟨running_inv, ?_⟩
  show ∃ t, runCommand running = .next t
  unfold runCommand
  cases running.fetch with
  | error c => exact ⟨_, rfl⟩
  | ok w =>
    simp only []
    cases decode w with
    | error c => exact ⟨_, rfl⟩
    | ok i =>
      obtain ⟨t, h, -⟩ := exec_settles running i
      exact ⟨t, h⟩

theorem witness_EveryRunEnds : running.Inv ∧ running.busy = true ∧ running.agenda = [] := ⟨running_inv, rfl, rfl⟩

theorem witness_FaultIsSticky : ∃ s t : State, s.Inv ∧ s.fault = true ∧ (∀ u, s.agenda.head? = some u → u.resets = false) ∧
    step s = .next t := by
  refine ⟨{ State.reset with fault := true, cause := some .cpRange, fcp := 256 }, _,
    ⟨reset_memory_wf, by decide, by decide, by decide, by decide, by decide⟩, rfl, fun u h => ?_, rfl⟩
  simp [State.reset] at h

theorem witness_ArraysConstantDuringRun : ∃ s t : State, s.busy = true ∧ s.agenda.head? ≠ some .powerOn ∧ step s = .next t :=
  ⟨{ running with agenda := [.host ⟨4, 0x1000, .write 0x04000000⟩] }, _, rfl, by decide, rfl⟩

end Sys2Proof.Tests
end

section
/-! # The invariant of a sound state

Every operation of the model keeps `State.Inv`, one lemma per operation; a step is then one of these operations
by the model's inversion lemmas. -/

namespace Sys2Proof.Machine

/-! ## What the invariant reads -/

/-- The invariant reads memory, BUSY, DONE, FAULT and the fault record only, so whatever leaves those alone keeps it. -/
theorem inv_congr {s t : State} (h : s.Inv) (memory : Memory.wf t.mem) (busy : t.busy = s.busy) (done : t.done = s.done)
    (fault : t.fault = s.fault) (cause : t.cause = s.cause) (fcp : t.fcp = s.fcp) (faultCmd : t.faultCmd = s.faultCmd) :
    t.Inv := by
  refine ⟨memory, ?_, ?_, ?_, ?_, ?_⟩
  · rw [busy, fault]; exact h.runNoFault
  · rw [busy, done]; exact h.runNotDone
  · rw [fault, done]; exact h.faultNotDone
  · rw [fault, cause]; exact h.recordIffFault
  · rw [fault, fcp, faultCmd]; exact h.noRecord

/-- A core with DONE, FAULT and the fault record clear is sound whatever canonical memory it has. -/
theorem inv_of_cleared {t : State} (memory : Memory.wf t.mem) (done : t.done = false)
    (fault : t.fault = false) (cause : t.cause = none) (fcp : t.fcp = 0) (faultCmd : t.faultCmd = 0) : t.Inv :=
  ⟨memory, fun _ => fault, fun _ => done, fun _ => done, by simp [fault, cause], fun _ => ⟨fcp, faultCmd⟩⟩

/-! ## Resets -/

theorem reset_inv : State.reset.Inv := inv_of_cleared reset_memory_wf rfl rfl rfl rfl rfl

theorem softReset_inv {s : State} (h : s.Inv) : s.softReset.Inv := inv_of_cleared h.memory rfl rfl rfl rfl rfl

theorem powerOnReset_inv (s : State) : s.powerOnReset.Inv := inv_of_cleared reset_memory_wf rfl rfl rfl rfl rfl

/-! ## The model's own fields -/

theorem withAgenda_inv {s : State} (h : s.Inv) (l : List Turn) : ({ s with agenda := l } : State).Inv :=
  inv_congr h h.memory rfl rfl rfl rfl rfl rfl

theorem withReplies_inv {s : State} (h : s.Inv) (l : List BusReply) : ({ s with replies := l } : State).Inv :=
  inv_congr h h.memory rfl rfl rfl rfl rfl rfl

/-! ## The sequencer -/

/-- Retirement sets DONE only where FAULT is clear: the core was running (44_sequencing.md R285). -/
theorem retire_inv {s : State} (h : s.Inv) (hb : s.busy = true) (halt : Bool) : (s.retire halt).Inv where
  memory := h.memory
  runNoFault _ := h.runNoFault hb
  runNotDone hr := by
    have running : (halt || s.singleStep) = false := by simpa [hb] using hr
    rw [retire_done, h.runNotDone hb, running, Bool.or_false]
  faultNotDone hf := by simp [h.runNoFault hb] at hf
  recordIffFault := h.recordIffFault
  noRecord := h.noRecord

/-- Fault entry finds DONE clear, since the core was running (60_exceptions.md R303). -/
theorem raise_inv {s : State} (h : s.Inv) (hb : s.busy = true) (c : Cause) : (s.raise c).Inv where
  memory := h.memory
  runNoFault hr := nomatch hr
  runNotDone hr := nomatch hr
  faultNotDone _ := h.runNotDone hb
  recordIffFault := by simp
  noRecord hf := nomatch hf

/-- The invariant does not read V0..V15. -/
theorem withRegs_inv {s : State} (h : s.Inv) (v : Vector Word 16) : ({ s with v := v } : State).Inv :=
  inv_congr h h.memory rfl rfl rfl rfl rfl rfl

theorem moves_inv {s t : State} (h : s.Inv) (hb : s.busy = true) (hm : Moves s t) : t.Inv := by
  rcases hm with ⟨v, halt, rfl⟩ | ⟨c, rfl⟩
  · exact retire_inv (withRegs_inv h v) hb halt
  · exact raise_inv h hb c

theorem sequencerTurn_inv {s t : State} (h : s.Inv) (ht : sequencerTurn s = .next t) : t.Inv := by
  obtain ⟨u, hu, hcase⟩ := sequencerTurn_cases s
  obtain rfl : u = t := Host.Outcome.next.inj (hu.symm.trans ht)
  rcases hcase with ⟨-, rfl⟩ | ⟨hb, hm⟩
  · exact h
  · exact moves_inv h hb hm

/-! ## The host -/

/-- A STATUS write can only clear DONE. -/
theorem writeStatus_inv {s : State} (h : s.Inv) (x : Word32) : (s.writeStatus x).Inv where
  memory := h.memory
  runNoFault := h.runNoFault
  runNotDone hb := by rw [writeStatus_done, h.runNotDone hb, Bool.false_and]
  faultNotDone hf := by rw [writeStatus_done, h.faultNotDone hf, Bool.false_and]
  recordIffFault := h.recordIffFault
  noRecord := h.noRecord

/-- A CTRL write resets, starts a run of an idle core without a fault, clearing DONE, or leaves what the invariant reads
(44_sequencing.md R290). -/
theorem writeCtrl_inv {s : State} (h : s.Inv) (x : Word32) : (s.writeCtrl x).Inv := by
  cases hr : x.getLsbD 1 with
  | true => rw [writeCtrl_of_reset s x hr]; exact softReset_inv h
  | false =>
    rw [writeCtrl_of_no_reset s x hr]
    cases hs : x.getLsbD 0 && !s.busy && !s.fault with
    | true =>
      have hf : s.fault = false := by
        simp only [Bool.and_eq_true, Bool.not_eq_true'] at hs
        exact hs.2
      exact ⟨h.memory, fun _ => hf, fun _ => Bool.and_false _, fun _ => Bool.and_false _, h.recordIffFault, h.noRecord⟩
    | false => exact inv_congr h h.memory (Bool.or_false _) (Bool.and_true _) rfl rfl rfl rfl

theorem busAccess_inv {s : State} (h : s.Inv) (a : Access) : (busAccess a s).1.Inv := by
  have memory := busAccess_wf s a h.memory
  rcases busAccess_cases s a with e | e | ⟨x, -, e⟩ | ⟨x, e⟩ | ⟨-, x, e⟩ | ⟨-, i, x, e⟩ | ⟨-, n, -, x, e⟩ |
    ⟨-, n, -, j, -, x, e⟩ <;> rw [e] at memory ⊢
  · exact h
  · exact inv_congr h memory rfl rfl rfl rfl rfl rfl
  · exact writeCtrl_inv h x
  · exact writeStatus_inv h x
  · exact inv_congr h memory rfl rfl rfl rfl rfl rfl
  · exact inv_congr h memory rfl rfl rfl rfl rfl rfl
  · exact inv_congr h memory rfl rfl rfl rfl rfl rfl
  · exact inv_congr h memory rfl rfl rfl rfl rfl rfl

theorem hostTurn_inv {s : State} (h : s.Inv) (a : Access) : (hostTurn a s).Inv :=
  withReplies_inv (busAccess_inv h a) _

/-! ## The step -/

theorem step_inv {s t : State} (h : s.Inv) (ht : step s = .next t) : t.Inv := by
  rcases step_cases s with ⟨u, hu, e⟩ | ⟨a, rest, -, e⟩ | ⟨rest, -, e⟩ <;> rw [e] at ht
  · have inv_u : u.Inv := by
      rcases hu with ⟨-, rfl⟩ | ⟨rest, -, rfl⟩
      · exact h
      · exact withAgenda_inv h rest
    exact sequencerTurn_inv inv_u ht
  · cases ht
    exact hostTurn_inv (withAgenda_inv h rest) a
  · cases ht
    exact powerOnReset_inv _

/-- Settles O56: the invariant holds after each agent's turn, by the inversion lemma of the step. -/
theorem stepKeepsSound : Obligations.StepKeepsSound := fun _ _ h ht => step_inv h ht

/-- Settles O55: memory is empty, and every flag and the fault record are clear. -/
theorem resetIsSound : Obligations.ResetIsSound := reset_inv

end Sys2Proof.Machine
end

section
/-! # The control registers

Accesses to the control registers (10_state.md R39 to R48): a read of any of them is open at every state, a
write of a read-only one is taken and ignored, and a write of CP depends on BUSY. -/

namespace Sys2Proof.Machine

section EveryState

variable (s : State)

/-- A read of a control register is never refused. -/
@[simp] theorem csr_locked_read (c : Csr) : (Region.csr c).locked .read = false := by cases c <;> rfl

/-- A read of a control register, running or idle, gives its word and leaves the state (20_memory.md R91, R92). -/
theorem busAccess_read_csr {o : BitVec 17} {c : Csr} (h : regionAt o.toNat = some (.csr c)) :
    busAccess ⟨4, o, .read⟩ s = (s, .data (Region.read s (.csr c))) :=
  busAccess_open s .read h (by simp)

/-- A write that the register ignores (10_state.md R48) is taken, running or idle. -/
theorem busAccess_write_ignored {o : BitVec 17} {c : Csr} {x : Word32} (h : regionAt o.toNat = some (.csr c))
    (unlocked : (Region.csr c).locked (.write x) = false) (ignored : Region.write x s (.csr c) = s) :
    busAccess ⟨4, o, .write x⟩ s = (s, .ack) := by
  rw [busAccess_open s (.write x) h (by rw [unlocked, Bool.and_false])]
  exact congrArg (·, BusReply.ack) ignored

/-- CFG as a number: BACKEND, one of three values, stands above the constant fields (10_state.md R47). -/
theorem cfgWord_toNat : cfgWord.toNat = 0x000A0810 + Config.backend.val * 16777216 := by
  have each : ∀ b : Fin 3, (0x000A0810 ||| (BitVec.ofNat 32 b.val <<< 24) : Word32).toNat =
      0x000A0810 + b.val * 16777216 := by decide
  exact each Config.backend

theorem regionAt_cp : regionAt (0x00C : BitVec 17).toNat = some (.csr .cp) := by decide

/-- A read of CP, at any state. -/
theorem busAccess_read_cp : busAccess ⟨4, 0x00C, .read⟩ s = (s, .data s.cpWord) := busAccess_read_csr s regionAt_cp

/-- A write of CP while idle is taken (10_state.md R43). -/
theorem busAccess_write_cp_idle (hb : s.busy = false) (x : Word32) :
    busAccess ⟨4, 0x00C, .write x⟩ s = (s.writeCp x, .ack) :=
  busAccess_open s (.write x) regionAt_cp (by rw [hb, Bool.false_and])

/-- A write of CP while running is refused (20_memory.md R91, log 2). -/
theorem busAccess_write_cp_running (hb : s.busy = true) (x : Word32) :
    busAccess ⟨4, 0x00C, .write x⟩ s = ({ s with accessErr := true }, .ack) :=
  busAccess_refused s (.write x) regionAt_cp (by rw [hb]; rfl)

end EveryState

/-- Settles O50: each register's word is one of the model's, with its value as a number. -/
theorem controlRegisterReads : Obligations.ControlRegisterReads := by
  intro s
  refine ⟨?id, ⟨s.ctrlWord, ?ctrl, ctrlWord_toNat s⟩, ⟨s.statusWord, ?status, statusWord_toNat s⟩,
    ⟨s.cpWord, busAccess_read_cp s, cpWord_toNat s⟩, ⟨s.faultCauseWord, ?faultCause, faultCauseWord_toNat s⟩,
    ?faultCmd, ?cmdCount, ⟨cfgWord, ?cfg, cfgWord_toNat⟩, ?writes⟩
  case id => exact busAccess_read_csr s (c := .id) (by decide)
  case ctrl => exact busAccess_read_csr s (c := .ctrl) (by decide)
  case status => exact busAccess_read_csr s (c := .status) (by decide)
  case faultCause => exact busAccess_read_csr s (c := .faultCause) (by decide)
  case faultCmd => exact busAccess_read_csr s (c := .faultCmd) (by decide)
  case cmdCount => exact busAccess_read_csr s (c := .cmdCount) (by decide)
  case cfg => exact busAccess_read_csr s (c := .cfg) (by decide)
  case writes =>
    intro o ho x
    simp only [List.mem_cons, List.not_mem_nil, or_false] at ho
    rcases ho with rfl | rfl | rfl | rfl | rfl
    · exact busAccess_write_ignored s (c := .id) (by decide) rfl rfl
    · exact busAccess_write_ignored s (c := .faultCause) (by decide) rfl rfl
    · exact busAccess_write_ignored s (c := .faultCmd) (by decide) rfl rfl
    · exact busAccess_write_ignored s (c := .cmdCount) (by decide) rfl rfl
    · exact busAccess_write_ignored s (c := .cfg) (by decide) rfl rfl

/-- Settles O51: the access is `State.writeStatus`, at every state. -/
theorem statusWriteOneClears : Obligations.StatusWriteOneClears := by
  intro s x
  refine ⟨s.writeStatus x, busAccess_status s x, ?_, ?_, rfl⟩
  · rw [writeStatus_done]; cases x.getLsbD 1 <;> simp
  · rw [writeStatus_accessErr]; cases x.getLsbD 3 <;> simp

/-- Settles O53: CP by the read, the write taken, the write refused and the two resets. -/
theorem commandPointerRegister : Obligations.CommandPointerRegister := by
  intro s
  refine ⟨⟨s.cpWord, busAccess_read_cp s, cpWord_toNat s⟩, fun hb x => ?_, busAccess_write_cp_running s, rfl, rfl⟩
  have low_nine_bits : (s.writeCp x).cp.toNat = x.toNat % 512 := by simp
  exact ⟨s.writeCp x, busAccess_write_cp_idle s hb x, low_nine_bits, rfl⟩

end Sys2Proof.Machine
end

section
/-! # The other agents' turns

The turns of the host and of the platform (10_state.md R30, log 1): the step's equation for each. -/

namespace Sys2Proof.Machine

section Turns

variable {s : State} {rest : List Turn}

theorem step_of_host {a : Access} (h : s.agenda = .host a :: rest) :
    step s = .next (hostTurn a { s with agenda := rest }) := by
  simp only [step, h]

theorem step_of_powerOn (h : s.agenda = .powerOn :: rest) :
    step s = .next (State.powerOnReset { s with agenda := rest }) := by
  simp only [step, h]

end Turns

/-- A host turn differs from its access in the recorded answer alone. -/
theorem hostTurn_withReplies (a : Access) (u : State) : { hostTurn a u with replies := u.replies } = (busAccess a u).1 := by
  obtain ⟨-, hreplies, -⟩ := busAccess_frame u a
  rw [← hreplies]
  rfl

/-- Settles O12: the step's equations for the two turns, and that an access leaves the agenda and the answers alone. -/
theorem otherAgentsTakeTheirTurn : Obligations.OtherAgentsTakeTheirTurn := by
  intro s rest
  refine ⟨fun a h => ?_, step_of_powerOn⟩
  obtain ⟨hagenda, -, -⟩ := busAccess_frame { s with agenda := rest } a
  exact ⟨_, step_of_host h, hagenda, rfl, hostTurn_withReplies a _⟩

end Sys2Proof.Machine
end

section
/-! # The host window

Where the map answers (20_memory.md R81), the bus errors (R84 to R87), the words of V, IMEM and TMEM as the host of
an idle core sees them (R82, R83, R90), and what is left of an access while the core runs (R91, R97, R98). -/

namespace Sys2Proof.Machine

/-! ## The address map -/

/-- An offset inside one of the four ranges of R81. -/
def Mapped (o : Nat) : Prop :=
  o < 0x20 ∨ (0x400 ≤ o ∧ o < 0x600) ∨ (0x1000 ≤ o ∧ o < 0x1400) ∨ (0x10000 ≤ o ∧ o < 0x18000)

section Ranges

variable {o : Nat}

theorem regionAt_csr_range (aligned : o % 4 = 0) (h : o < 0x20) : ∃ c, regionAt o = some (.csr c) := by
  obtain ⟨c, hc⟩ := csrAt_some (o / 4) (by omega)
  refine ⟨c, ?_⟩
  unfold regionAt
  rw [if_neg (by omega), if_pos h, hc]
  rfl

theorem regionAt_v_range (aligned : o % 4 = 0) (h : 0x400 ≤ o ∧ o < 0x600) : ∃ i j, regionAt o = some (.v i j) := by
  have word := regionAt_v ⟨(o - 0x400) / 32, by omega⟩ ((o - 0x400) % 32 / 4) (by omega)
  have offset : 0x400 + 32 * ((o - 0x400) / 32) + 4 * ((o - 0x400) % 32 / 4) = o := by omega
  rw [offset] at word
  exact ⟨_, _, word⟩

theorem regionAt_imem_range (aligned : o % 4 = 0) (h : 0x1000 ≤ o ∧ o < 0x1400) : ∃ n, regionAt o = some (.imem n) := by
  have word := regionAt_imem ((o - 0x1000) / 4) (by omega)
  have offset : 0x1000 + 4 * ((o - 0x1000) / 4) = o := by omega
  rw [offset] at word
  exact ⟨_, word⟩

theorem regionAt_tmem_range (aligned : o % 4 = 0) (h : 0x10000 ≤ o ∧ o < 0x18000) :
    ∃ e j, regionAt o = some (.tmem e j) := by
  have word := regionAt_tmem ((o - 0x10000) / 32) ((o - 0x10000) % 32 / 4) (by omega) (by omega)
  have offset : 0x10000 + 32 * ((o - 0x10000) / 32) + 4 * ((o - 0x10000) % 32 / 4) = o := by omega
  rw [offset] at word
  exact ⟨_, _, word⟩

/-- An aligned offset in the V, IMEM or TMEM range has a word that R91 locks for reads and writes. -/
theorem regionAt_locked_range (aligned : o % 4 = 0)
    (h : (0x400 ≤ o ∧ o < 0x600) ∨ (0x1000 ≤ o ∧ o < 0x1400) ∨ (0x10000 ≤ o ∧ o < 0x18000)) :
    ∃ r, regionAt o = some r ∧ ∀ op, r.locked op = true := by
  rcases h with h | h | h
  · obtain ⟨i, j, word⟩ := regionAt_v_range aligned h
    exact ⟨_, word, fun _ => rfl⟩
  · obtain ⟨n, word⟩ := regionAt_imem_range aligned h
    exact ⟨_, word, fun _ => rfl⟩
  · obtain ⟨e, j, word⟩ := regionAt_tmem_range aligned h
    exact ⟨_, word, fun _ => rfl⟩

theorem regionAt_some_of_mapped (aligned : o % 4 = 0) (h : Mapped o) : ∃ r, regionAt o = some r := by
  rcases h with h | h
  · obtain ⟨c, word⟩ := regionAt_csr_range aligned h
    exact ⟨_, word⟩
  · obtain ⟨r, word, -⟩ := regionAt_locked_range aligned h
    exact ⟨r, word⟩

theorem regionAt_none_of_misaligned (h : o % 4 ≠ 0) : regionAt o = none := by
  unfold regionAt
  rw [if_pos h]

theorem regionAt_none_of_unmapped (h : ¬ Mapped o) : regionAt o = none := by
  unfold Mapped at h
  unfold regionAt
  simp only [Config.vBase, Config.imemBase, Config.imemWords, Config.tmemBase, Config.tmemEntries]
  rw [if_neg (c := o < 0x20) (by omega), if_neg (c := 0x400 ≤ o ∧ _) (by omega),
    if_neg (c := 0x1000 ≤ o ∧ _) (by omega), if_neg (c := 0x10000 ≤ o ∧ _) (by omega), ite_self]

end Ranges

/-! ## Bus errors -/

section BusErrors

variable (s : State)

theorem busAccess_of_width_ne {a : Access} (h : a.width ≠ 4) : busAccess a s = (s, .busError) := by
  unfold busAccess
  rw [if_pos h]

theorem busAccess_of_regionAt_none {a : Access} (h : regionAt a.off.toNat = none) : busAccess a s = (s, .busError) := by
  simp only [busAccess, h, ite_self]

/-- Running or idle, an access of a wrong width, misaligned or unmapped gets a bus error and changes nothing. -/
theorem busAccess_busError {a : Access} (h : a.width ≠ 4 ∨ a.off.toNat % 4 ≠ 0 ∨ ¬ Mapped a.off.toNat) :
    busAccess a s = (s, .busError) := by
  rcases h with h | h | h
  · exact busAccess_of_width_ne s h
  · exact busAccess_of_regionAt_none s (regionAt_none_of_misaligned h)
  · exact busAccess_of_regionAt_none s (regionAt_none_of_unmapped h)

/-- Every other access is taken or refused (R91), and neither answer is a bus error. -/
theorem busAccess_ne_busError {a : Access} (width : a.width = 4) (aligned : a.off.toNat % 4 = 0)
    (mapped : Mapped a.off.toNat) : (busAccess a s).2 ≠ .busError := by
  obtain ⟨w, off, op⟩ := a
  obtain rfl : w = 4 := width
  obtain ⟨r, word⟩ := regionAt_some_of_mapped aligned mapped
  cases locked : s.busy && r.locked op with
  | true => rw [busAccess_refused s op word locked]; cases op <;> nofun
  | false => rw [busAccess_open s op word locked]; cases op <;> nofun

end BusErrors

/-- Settles O46: the bus errors do not depend on BUSY. -/
theorem busErrorsExactly : Obligations.BusErrorsExactly :=
  fun s _ _ => ⟨busAccess_busError s, busAccess_ne_busError s⟩

/-- Settles O47: the bus errors do not depend on BUSY, which is the reading of log 8. -/
theorem busErrorsWhileRunning : Obligations.BusErrorsWhileRunning :=
  fun s _ _ => ⟨busAccess_busError s, busAccess_ne_busError s⟩

/-! ## An idle core -/

section Idle

variable (s : State) {o : Nat} {r : Region}

/-- A read of a word of an idle core, by its offset as a number. -/
theorem busAccess_read_idle (idle : s.busy = false) (ho : o < 0x20000) (word : regionAt o = some r) :
    busAccess ⟨4, BitVec.ofNat 17 o, .read⟩ s = (s, .data (r.read s)) :=
  busAccess_open s .read (by rwa [offset_toNat o ho]) (by rw [idle, Bool.false_and])

/-- A write of a word of an idle core, by its offset as a number. -/
theorem busAccess_write_idle (idle : s.busy = false) (ho : o < 0x20000) (word : regionAt o = some r) (x : Word32) :
    busAccess ⟨4, BitVec.ofNat 17 o, .write x⟩ s = (r.write x s, .ack) :=
  busAccess_open s (.write x) (by rwa [offset_toNat o ho]) (by rw [idle, Bool.false_and])

/-- A register write is seen in the registers alone. -/
theorem setReg_sameBesides (i : Reg) (x : Word) : SameBesides s (s.setReg i x) :=
  ⟨rfl, rfl, rfl, rfl, rfl, rfl, rfl, fun _ => rfl, rfl, rfl, rfl⟩

/-- A word written to TMEM entry `e` leaves every other entry (R90). -/
theorem tread_setWord32_of_ne {e f j : Nat} (hj : j < 8) (ne : f ≠ e) (x : Word32) :
    (s.setWord32 (tmemOffset e j) x).tread f = s.tread f := by
  refine tread_congr s _ f fun k hk => ?_
  rw [setWord32_readByte, if_neg]
  simp only [tmemOffset, Config.tmemBase]
  omega

/-- A word written to TMEM leaves every IMEM word: the two ranges do not meet (R81). -/
theorem iread_setWord32_tmemOffset {n : Nat} (hn : n < 256) (e j : Nat) (x : Word32) :
    (s.setWord32 (tmemOffset e j) x).iread n = s.iread n := by
  refine word32At_setWord32_of_disjoint s _ _ x (.inl ?_)
  simp only [imemOffset, tmemOffset, Config.imemBase, Config.tmemBase]
  omega

end Idle

/-- Settles O43: the write is `setSubword` on V[i], whose other words the laws of `subword` keep. -/
theorem operandRegisterWords : Obligations.OperandRegisterWords := by
  intro s i j x hj idle
  have word := regionAt_v i j hj
  refine ⟨busAccess_read_idle s idle (by omega) word,
    s.setReg i (setSubword (s.reg i) j x), busAccess_write_idle s idle (by omega) word x, ?_, fun k hk ne => ?_,
    fun r ne => setReg_reg_of_ne s i r _ ne, rfl, rfl, rfl, rfl, setReg_sameBesides s i _⟩
  · rw [setReg_reg_self]
    exact subword_setSubword (s.reg i) j x hj
  · rw [setReg_reg_self]
    exact subword_setSubword_of_ne (s.reg i) j k x hk ne

/-- Settles O44: the write is `setWord32` at the word's offset, read back byte by byte. -/
theorem commandMemoryWords : Obligations.CommandMemoryWords := by
  intro s n x hn idle
  have word := regionAt_imem n hn
  refine ⟨busAccess_read_idle s idle (by omega) word,
    s.setWord32 (0x1000 + 4 * n) x, busAccess_write_idle s idle (by omega) word x,
    word32At_setWord32 s _ x, fun k hk => ?_, fun a ha => ?_, rfl⟩
  · rw [setWord32_readByte, if_pos (by omega), Nat.add_sub_cancel_left]
  · rw [setWord32_readByte, if_neg (by omega)]

/-- Settles O45: a word of an entry is the 32-bit word at its offset (`subword_tread`), and words at different
offsets do not overlap. -/
theorem tableMemoryWords : Obligations.TableMemoryWords := by
  intro s e j x he hj idle
  have word := regionAt_tmem e j he hj
  refine ⟨?_, s.setWord32 (tmemOffset e j) x, busAccess_write_idle s idle (by omega) word x, ?_, fun k hk ne => ?_,
    fun f ne => tread_setWord32_of_ne s hj ne x, fun n hn => iread_setWord32_tmemOffset s hn e j x, rfl⟩
  · rw [busAccess_read_idle s idle (by omega) word]
    exact congrArg (s, BusReply.data ·) (subword_tread s e j hj).symm
  · exact (subword_tread _ e j hj).trans (word32At_setWord32 s _ x)
  · have disjoint : tmemOffset e k + 4 ≤ tmemOffset e j ∨ tmemOffset e j + 4 ≤ tmemOffset e k := by
      simp only [tmemOffset]
      omega
    calc subword ((s.setWord32 (tmemOffset e j) x).tread e) k
        = (s.setWord32 (tmemOffset e j) x).word32At (tmemOffset e k) := subword_tread _ e k hk
      _ = s.word32At (tmemOffset e k) := word32At_setWord32_of_disjoint s _ _ x disjoint
      _ = subword (s.tread e) k := (subword_tread s e k hk).symm

/-! ## A running core -/

section Running

variable {s : State}

/-- A locked word of a running core: the access is refused (R91, log 2). -/
theorem busAccess_running_locked {o : BitVec 17} {r : Region} (running : s.busy = true) (op : AccessOp)
    (word : regionAt o.toNat = some r) (locked : r.locked op = true) : busAccess ⟨4, o, op⟩ s = refuseAccess op s :=
  busAccess_refused s op word (by rw [running, locked, Bool.and_true])

/-- All that an access can still do while the core runs: nothing, the refusal, or a write of CTRL or STATUS. -/
theorem busAccess_running_cases (running : s.busy = true) (a : Access) :
    (busAccess a s).1 = s ∨ (busAccess a s).1 = { s with accessErr := true } ∨
    (∃ x, a = ⟨4, 0x004, .write x⟩ ∧ (busAccess a s).1 = s.writeCtrl x) ∨
    (∃ x, (busAccess a s).1 = s.writeStatus x) := by
  have not_idle : s.busy ≠ false := by rw [running]; decide
  rcases busAccess_cases s a with h | h | h | h | ⟨idle, -⟩ | ⟨idle, -⟩ | ⟨idle, -⟩ | ⟨idle, -⟩
  · exact .inl h
  · exact .inr (.inl h)
  · exact .inr (.inr (.inl h))
  · exact .inr (.inr (.inr h))
  all_goals exact absurd idle not_idle

/-- No CTRL write, a soft reset included, changes a byte of IMEM or TMEM (70_reset_and_hazards.md R342). -/
@[simp] theorem writeCtrl_readByte (s : State) (x : Word32) (b : Nat) : (s.writeCtrl x).readByte b = s.readByte b := by
  cases reset : x.getLsbD 1 with
  | true => rw [writeCtrl_of_reset s x reset]; rfl
  | false => rw [writeCtrl_of_no_reset s x reset]; rfl

theorem busAccess_running_readByte (running : s.busy = true) (a : Access) (b : Nat) :
    (busAccess a s).1.readByte b = s.readByte b := by
  rcases busAccess_running_cases running a with h | h | ⟨x, -, h⟩ | ⟨x, h⟩
  · rw [h]
  · rw [h]; rfl
  · rw [h, writeCtrl_readByte]
  · rw [h, writeStatus_readByte]

theorem moves_readByte {t : State} (h : Moves s t) (b : Nat) : t.readByte b = s.readByte b := by
  rcases h with ⟨v, halt, rfl⟩ | ⟨c, rfl⟩ <;> rfl

/-- The sequencer writes no byte of IMEM or TMEM, running or idle (R97). -/
theorem sequencerTurn_readByte {t : State} (h : sequencerTurn s = .next t) (b : Nat) : t.readByte b = s.readByte b := by
  obtain ⟨u, hu, hcase⟩ := sequencerTurn_cases s
  obtain rfl : u = t := Host.Outcome.next.inj (hu.symm.trans h)
  rcases hcase with ⟨-, rfl⟩ | ⟨-, moves⟩
  · rfl
  · exact moves_readByte moves b

end Running

/-- Settles O48: the words of these ranges, and CP for writes, are locked. -/
theorem runningAccessRefused : Obligations.RunningAccessRefused := by
  intro s o running aligned
  refine ⟨fun range => ?_, fun ho x => ?_⟩
  · obtain ⟨r, word, locked⟩ := regionAt_locked_range aligned range
    exact ⟨busAccess_running_locked running .read word (locked _),
      fun x => busAccess_running_locked running (.write x) word (locked _)⟩
  · obtain rfl : o = 0x00C := BitVec.eq_of_toNat_eq ho
    exact busAccess_write_cp_running s running x

/-- Settles O49: of what a running core still takes, only a CTRL write with SOFT_RESET reaches what the run works on. -/
theorem hostCannotDisturbRun : Obligations.HostCannotDisturbRun := by
  intro s a running no_reset
  have bytes := busAccess_running_readByte running a
  rcases busAccess_running_cases running a with h | h | ⟨x, rfl, h⟩ | ⟨x, h⟩ <;> rw [h] at bytes ⊢
  · exact ⟨running, rfl, rfl, fun _ => rfl, bytes⟩
  · exact ⟨running, rfl, rfl, fun _ => rfl, bytes⟩
  · rw [writeCtrl_of_no_reset s x no_reset] at bytes ⊢
    exact ⟨Bool.or_eq_true_iff.2 (.inl running), rfl, rfl, fun _ => rfl, bytes⟩
  · exact ⟨running, rfl, rfl, fun _ => rfl, bytes⟩

/-- Settles O60: no command and no access to a running core writes the arrays, and a soft reset keeps them. -/
theorem arraysConstantDuringRun : Obligations.ArraysConstantDuringRun := by
  intro s t running no_powerOn ht b
  rcases step_cases s with ⟨u, hu, e⟩ | ⟨a, rest, -, e⟩ | ⟨rest, agenda, -⟩
  · rw [e] at ht
    have turn := sequencerTurn_readByte ht b
    rcases hu with ⟨-, rfl⟩ | ⟨rest, -, rfl⟩ <;> exact turn
  · obtain rfl := Host.Outcome.next.inj (e.symm.trans ht)
    exact busAccess_running_readByte (s := { s with agenda := rest }) running a b
  · exact absurd (congrArg List.head? agenda) no_powerOn

end Sys2Proof.Machine
end

section
/-! # The command encoding

The words and the well-formed commands of 30_encoding.md stand for each other (R122, R124, R130), and every other word
raises the fault that R126, R127 and R128 name. -/

namespace Sys2Proof

/-! ## From a command to its word and back -/

/-- A word of the format `f` with the opcode `op`: the fields that `f` uses as in `w`, the others 0 (R122). -/
def Format.wordOf (f : Format) (op : BitVec 6) (w : Word32) : Word32 :=
  match f with
  | .n => packFields op 0 0 0 0 0
  | .r1 => packFields op (fieldRd w) (fieldRs1 w) 0 0 0
  | .r2 => packFields op (fieldRd w) (fieldRs1 w) (fieldRs2 w) 0 0
  | .r3 => packFields op (fieldRd w) (fieldRs1 w) (fieldRs2 w) (fieldRs3 w) 0
  | .i => packFields op (fieldRd w) (fieldRs1 w) 0 0 (fieldImm w)
  | .k => packFields op (fieldRd w) 0 0 0 (fieldImm w)
  | .t => packFields op (fieldRd w) (fieldRs1 w) 0 0 (fieldImm w)

/-- The must-be-zero bits of a format are exactly the fields it does not use, so a word in which they are clear keeps
nothing else. -/
theorem wordOf_of_mbz_clear {f : Format} {w : Word32} (clear : w &&& f.mbz = 0) : f.wordOf (fieldOp w) w = w := by
  have fields := packFields_fields w
  cases f with
  | n =>
    rwa [fieldRd_zero w clear (by decide), fieldRs1_zero w clear (by decide), fieldRs2_zero w clear (by decide),
      fieldRs3_zero w clear (by decide), fieldImm_zero w clear (by decide)] at fields
  | r1 =>
    rwa [fieldRs2_zero w clear (by decide), fieldRs3_zero w clear (by decide), fieldImm_zero w clear (by decide)]
      at fields
  | r2 => rwa [fieldRs3_zero w clear (by decide), fieldImm_zero w clear (by decide)] at fields
  | r3 => rwa [fieldImm_zero w clear (by decide)] at fields
  | i => rwa [fieldRs2_zero w clear (by decide), fieldRs3_zero w clear (by decide)] at fields
  | k =>
    rwa [fieldRs1_zero w clear (by decide), fieldRs2_zero w clear (by decide), fieldRs3_zero w clear (by decide)]
      at fields
  | t => rwa [fieldRs2_zero w clear (by decide), fieldRs3_zero w clear (by decide)] at fields

/-- A word's command encodes to the fields of the word that the command's format uses. -/
theorem encode_of_commandOf {w : Word32} {i : Instr} (h : commandOf w = some i) :
    encode i = i.format.wordOf i.opcode w := by
  unfold commandOf at h
  split at h <;> cases h
  all_goals rfl

/-- The decoder undoes the encoder. -/
theorem decode_encode {i : Instr} (wf : i.wf = true) : decode (encode i) = .ok i := by
  obtain ⟨command, clear⟩ := encoded_fields i
  exact decode_eq_ok.2 ⟨command, clear, wf⟩

/-- The encoder undoes the decoder. -/
theorem encode_of_decode {w : Word32} {i : Instr} (h : decode w = .ok i) : encode i = w := by
  obtain ⟨command, clear, -⟩ := decode_eq_ok.1 h
  calc encode i = i.format.wordOf i.opcode w := encode_of_commandOf command
    _ = i.format.wordOf (fieldOp w) w := by rw [opcode_of_commandOf command]
    _ = w := wordOf_of_mbz_clear clear

/-- Settles O4: the encoded word reads back as the command, and its must-be-zero bits are clear. -/
theorem decodeOfEncode : Obligations.DecodeOfEncode := fun _ wf => decode_encode wf

/-- Settles O5: the word is the fields its format uses, since the must-be-zero bits are clear. -/
theorem encodeOfDecode : Obligations.EncodeOfDecode := by
  intro w i h
  obtain ⟨-, -, wf⟩ := decode_eq_ok.1 h
  exact ⟨wf, encode_of_decode h⟩

/-- Settles O7: each word is the encoding of its command, field by field. -/
theorem sampleWordsDecode : Obligations.SampleWordsDecode :=
  ⟨decode_encode (i := .nop) rfl, decode_encode (i := .halt) rfl, decode_encode (i := .mov 1 2) rfl,
    decode_encode (i := .ldc 15 8) rfl, decode_encode (i := .csel 4 1 2 0) rfl,
    decode_encode (i := .cswap 1 2 3) rfl, decode_encode (i := .fadd 2 0 1) rfl,
    decode_encode (i := .fpow2k 8 0 5) rfl, decode_encode (i := .smmul 4 2 3) rfl,
    decode_encode (i := .sel8 13 0 1000) rfl, decode_encode (i := .selnaf 13 1 832) rfl⟩

/-! ## The words that fault -/

/-- The reserved opcodes of R126. -/
def ReservedOpcode (op : Nat) : Prop :=
  op = 0x00 ∨ op = 0x07 ∨ (0x11 ≤ op ∧ op ≤ 0x17) ∨ (0x23 ≤ op ∧ op ≤ 0x27) ∨ (0x2A ≤ op ∧ op ≤ 0x3F)

/-- The opcode map of R125 leaves out exactly the reserved opcodes. -/
theorem commandOf_eq_none_iff (w : Word32) : commandOf w = none ↔ ReservedOpcode (fieldOp w).toNat := by
  have opcode_lt := (fieldOp w).isLt
  unfold commandOf ReservedOpcode
  split
  case h_29 => -- no opcode of the map
    simp only [true_iff, imp_false] at *
    omega
  all_goals
    rename_i op
    rw [op]
    simp

/-- Settles O6: a word names a command exactly when its opcode is not reserved, and then the decoder's checks decide. -/
theorem decodeFaultsExactly : Obligations.DecodeFaultsExactly := by
  intro w op reserved
  have op_eq : (fieldOp w).toNat = op := fieldOp_toNat w
  have none_iff : commandOf w = none ↔ reserved := by rw [commandOf_eq_none_iff, op_eq]; rfl
  refine ⟨fun h => decode_illegalOpcode (none_iff.2 h), fun h => ?_⟩
  obtain ⟨i, command⟩ := Option.ne_none_iff_exists'.1 (mt none_iff.1 h)
  exact ⟨i, command, by rw [opcode_of_commandOf command, op_eq], decode_illegalField command,
    fun clear wf => decode_eq_ok.2 ⟨command, clear, wf⟩⟩

end Sys2Proof

namespace Sys2Proof.Machine

/-- Each of the four commands that R124 constrains checks its fields before it does anything else (log 11). -/
theorem exec_of_not_wf {i : Instr} (s : State) (h : i.wf = false) :
    exec i s = .next (settle s (.error .illegalField)) := by
  cases i with
  | ldc rd index =>
    have no_entry : rom index.val = none := rom_none _ (by simpa [Instr.wf] using h)
    simp only [exec, execLdc, no_entry]
  | fpow2k rd rs1 k =>
    have no_count : WellFormed.squaringCount k = false := h
    simp only [exec, execFpow2k, no_count, Bool.false_eq_true, if_false]
  | sel8 rd rs1 tbase => exact congrArg (Host.Outcome.next <| settle s ·) (if_pos h)
  | selnaf rd rs1 tbase => exact congrArg (Host.Outcome.next <| settle s ·) (if_pos h)
  | _ => cases h

/-- Settles O38: `exec` by its own check, the decoder by the constraint, since the encoded word names the command. -/
theorem illegalFieldsFault : Obligations.IllegalFieldsFault := by
  intro i s h
  obtain ⟨command, -⟩ := encoded_fields i
  exact ⟨faultsWith_of (exec_of_not_wf s h), decode_illegalField command (.inr h)⟩

end Sys2Proof.Machine
end

section
/-! # Conditional select and swap, and the field unit

The commands of 40_field.md. What FADD to FCHK write is arithmetic modulo p, stated here over numbers; that they retire
writing it, or fault on an operand of p or more, is the law of the shape they share. -/

namespace Sys2Proof.Machine

/-! ## Conditional select and swap -/

/-- The XOR exchange of R182 under the mask of the choice is the blend of CSEL. -/
theorem xor_exchange_eq_blend (x y c : Word) : x ^^^ ((x ^^^ y) &&& (0 - c)) = blend x y c := by
  unfold blend
  ext i hi
  simp only [BitVec.getElem_xor, BitVec.getElem_and, BitVec.getElem_or, BitVec.getElem_not]
  cases x[i] <;> cases y[i] <;> simp

section Choice

variable {s : State} {c : Reg}

theorem exec_csel_of_choice (rd a b : Reg) (h : s.reg c = 0 ∨ s.reg c = 1) :
    exec (.csel rd a b c) s = .next (settle s (.ok (s.setReg rd (blend (s.reg a) (s.reg b) (s.reg c))))) := by
  simp only [exec, execCsel, choice_ok s c h]
  rfl

theorem exec_csel_of_bad_choice (rd a b : Reg) (h : s.reg c ≠ 0 ∧ s.reg c ≠ 1) :
    exec (.csel rd a b c) s = .next (settle s (.error .badChoice)) := by
  simp only [exec, execCsel, choice_error s c h]
  rfl

/-- CSWAP is two selects, each register blended with the other. -/
theorem exec_cswap_of_choice (a b : Reg) (h : s.reg c = 0 ∨ s.reg c = 1) :
    exec (.cswap a b c) s = .next (settle s (.ok ((s.setReg a (blend (s.reg a) (s.reg b) (s.reg c))).setReg b
      (blend (s.reg b) (s.reg a) (s.reg c))))) := by
  rw [← xor_exchange_eq_blend, ← xor_exchange_eq_blend, BitVec.xor_comm (s.reg b) (s.reg a)]
  simp only [exec, execCswap, choice_ok s c h]
  rfl

theorem exec_cswap_of_bad_choice (a b : Reg) (h : s.reg c ≠ 0 ∧ s.reg c ≠ 1) :
    exec (.cswap a b c) s = .next (settle s (.error .badChoice)) := by
  simp only [exec, execCswap, choice_error s c h]
  rfl

/-- CSWAP with a legal choice retires, the second register's write last. -/
theorem cswap_retires (a b : Reg) (h : s.reg c = 0 ∨ s.reg c = 1) :
    ∃ t, exec (.cswap a b c) s = .next t ∧ Retired s t ∧ ∀ r, t.reg r =
      if r = b then blend (s.reg b) (s.reg a) (s.reg c)
      else if r = a then blend (s.reg a) (s.reg b) (s.reg c) else s.reg r :=
  ⟨_, exec_cswap_of_choice a b h, retired_of_regsOnly (regsOnly_setReg (regsOnly_setReg (regsOnly_refl s) _ _) _ _),
    fun r => by rw [settle_ok, retire_reg, setReg_reg, setReg_reg]⟩

end Choice

/-- Settles O18: the blend with choice 0 is the first operand, with choice 1 the second. -/
theorem cselSelectsByChoice : Obligations.CselSelectsByChoice := by
  intro rd a b c s
  refine ⟨⟨rfl, rfl⟩, fun h => ?zero, fun h => ?one, fun h => ?bad⟩
  case zero =>
    have c_eq := reg_eq_zero_of_num s h
    exact retiresWriting_of (by rw [exec_csel_of_choice rd a b (.inl c_eq), c_eq, blend_zero])
  case one =>
    have c_eq := reg_eq_one_of_num s h
    exact retiresWriting_of (by rw [exec_csel_of_choice rd a b (.inr c_eq), c_eq, blend_one])
  case bad => exact faultsWith_of (exec_csel_of_bad_choice rd a b (reg_ne_of_num s h))

/-- Settles O19: the blends with choice 0 keep the two registers, with choice 1 they exchange them; where both names
are one register, both writes write its value. -/
theorem cswapSwapsByChoice : Obligations.CswapSwapsByChoice := by
  intro a b c s
  refine ⟨⟨rfl, rfl⟩, fun h => ?zero, fun h => ?one, fun h => ?bad⟩
  case zero =>
    have c_eq := reg_eq_zero_of_num s h
    obtain ⟨t, exec_eq, retired, regs⟩ := cswap_retires a b (.inl c_eq)
    refine ⟨t, exec_eq, retired, fun r => ?_⟩
    rw [regs, c_eq, blend_zero, blend_zero]
    split
    · rw [‹r = b›]
    · split
      · rw [‹r = a›]
      · rfl
  case one =>
    have c_eq := reg_eq_one_of_num s h
    obtain ⟨t, exec_eq, retired, regs⟩ := cswap_retires a b (.inr c_eq)
    refine ⟨t, exec_eq, retired, fun r => ?_⟩
    rw [regs, c_eq, blend_one, blend_one]
    by_cases hb : r = b
    · by_cases ha : r = a
      · rw [if_pos hb, if_pos ha, ← ha, ← hb]
      · rw [if_pos hb, if_neg ha, if_pos hb]
    · rw [if_neg hb, if_neg hb]
  case bad => exact faultsWith_of (exec_cswap_of_bad_choice a b (reg_ne_of_num s h))

/-! ## Arithmetic modulo p -/

/-- A value and its product with m - 1 cancel modulo m. -/
theorem add_mul_pred_mod {m : Nat} (a : Nat) (hm : 0 < m) : (a + a * (m - 1) % m) % m = 0 := by
  have multiple : a + a * (m - 1) = a * m := by
    rw [show a + a * (m - 1) = a * (1 + (m - 1)) by ring, Nat.add_sub_cancel' hm]
  rw [Nat.add_mod_mod, multiple, Nat.mul_mod_left]

/-- The product with m - 1 negates modulo m: it is the one value below m that cancels. -/
theorem mul_pred_mod {a m : Nat} (ha : a < m) : a * (m - 1) % m = if a = 0 then 0 else m - a := by
  have product_lt : a * (m - 1) % m < m := Nat.mod_lt _ (by omega)
  have cancels := add_mul_pred_mod a (by omega : 0 < m)
  rw [add_mod_cases ha product_lt] at cancels
  split at cancels <;> split <;> omega

/-- One squaring more is one squaring after the others. -/
theorem squareTimes_succ (k t : Nat) : squareTimes (k + 1) t = squareTimes k t * squareTimes k t % Config.p := by
  induction k generalizing t with
  | zero => rfl
  | succ k ih => exact ih (t * t % Config.p)

theorem squareTimes_lt (k : Nat) {t : Nat} (h : t < Config.p) : squareTimes k t < Config.p := by
  rw [squareTimes_eq k t h]
  exact Nat.mod_lt _ p_pos

/-! ## The field commands -/

/-- A command that writes a number below m leaves one there. -/
theorem num_lt_of_retiresWriting {i : Instr} {s t : State} {rd : Reg} {n m : Nat}
    (h : RetiresWriting i s rd (BitVec.ofNat 256 n)) (hn : n < m) (hm : m ≤ 2 ^ 255) (ht : exec i s = .next t) :
    t.num rd < m := by
  obtain ⟨u, hu, num_eq, -⟩ := retiresWriting_num h (by omega)
  obtain rfl : u = t := Host.Outcome.next.inj (hu.symm.trans ht)
  rwa [num_eq]

theorem fault_of_faultsWith {i : Instr} {s t : State} {c : Cause} (h : FaultsWith i s c) (ht : exec i s = .next t) :
    t.fault = true := by
  obtain ⟨u, hu, faulted⟩ := h
  obtain rfl : u = t := Host.Outcome.next.inj (hu.symm.trans ht)
  exact faulted.fault

section Equations

variable (rd a b : Reg) (s : State)

theorem exec_fadd : exec (.fadd rd a b) s =
    .next (settle s (fieldBinary (fun x y => (x + y) % Config.p) rd a b s)) := rfl

theorem exec_fsub : exec (.fsub rd a b) s =
    .next (settle s (fieldBinary (fun x y => modulo ((x : Int) - (y : Int)) Config.p) rd a b s)) := rfl

theorem exec_fneg : exec (.fneg rd a) s =
    .next (settle s (fieldUnary (fun x => x * (Config.p - 1) % Config.p) rd a s)) := rfl

theorem exec_fmul : exec (.fmul rd a b) s =
    .next (settle s (fieldBinary (fun x y => x * y % Config.p) rd a b s)) := rfl

theorem exec_fsqr : exec (.fsqr rd a) s = .next (settle s (fieldUnary (fun x => x * x % Config.p) rd a s)) := rfl

theorem exec_fsqr2 : exec (.fsqr2 rd a) s =
    .next (settle s (fieldUnary (fun x => 2 * x * x % Config.p) rd a s)) := rfl

/-- FPOW2K with a count that R124 allows. -/
theorem exec_fpow2k {k : Imm} (h : 1 ≤ k.val) :
    exec (.fpow2k rd a k) s = .next (settle s (fieldUnary (squareTimes k.val) rd a s)) :=
  congrArg (Host.Outcome.next <| settle s ·) (if_pos (decide_eq_true h))

theorem exec_ffromb : exec (.ffromb rd a) s =
    .next (settle s (convert (fun x => x % 2 ^ 255 % Config.p) rd a s)) := rfl

theorem exec_fchk : exec (.fchk rd a) s = .next (settle s (fieldUnary (fun x => x) rd a s)) := rfl

/-- A binary command of a register with itself is the unary command. -/
theorem fieldBinary_self (f : Nat → Nat → Nat) : fieldBinary f rd a a s = fieldUnary (fun n => f n n) rd a s := by
  unfold fieldBinary fieldUnary
  cases fe a s <;> rfl

/-- FSQR is FMUL of the operand with itself, at every state (R165). -/
theorem exec_fsqr_eq_exec_fmul : exec (.fsqr rd a) s = exec (.fmul rd a a) s := by
  rw [exec_fmul, fieldBinary_self, exec_fsqr]

end Equations

/-- Settles O20: the sum of two canonical values is reduced by one subtraction. -/
theorem fieldAddResult : Obligations.FieldAddResult := by
  intro rd a b s
  refine ⟨⟨rfl, rfl⟩, fun ha hb => ?_, faultsWith_fieldBinary (exec_fadd rd a b s)⟩
  rw [← add_mod_cases ha hb]
  exact retiresWriting_fieldBinary (exec_fadd rd a b s) ha hb

/-- Settles O21: the difference of two canonical values is reduced by one addition. -/
theorem fieldSubResult : Obligations.FieldSubResult := by
  intro rd a b s
  refine ⟨⟨rfl, rfl⟩, fun ha hb => ?_, faultsWith_fieldBinary (exec_fsub rd a b s)⟩
  rw [← modulo_sub_cases ha hb]
  exact retiresWriting_fieldBinary (exec_fsub rd a b s) ha hb

/-- Settles O22: FNEG writes the product with p - 1, which is the negation. -/
theorem fieldNegResult : Obligations.FieldNegResult := by
  intro rd a s
  refine ⟨⟨rfl, rfl⟩, fun ha => ?_, faultsWith_fieldUnary (exec_fneg rd a s)⟩
  rw [← mul_pred_mod ha, and_self]
  exact retiresWriting_fieldUnary (exec_fneg rd a s) ha

/-- Settles O23: the plain product, by the law of the binary field commands. -/
theorem fieldMulResult : Obligations.FieldMulResult := fun rd a b s =>
  ⟨⟨rfl, rfl⟩, retiresWriting_fieldBinary (exec_fmul rd a b s), faultsWith_fieldBinary (exec_fmul rd a b s)⟩

/-- Settles O24: the square as a product, and FSQR as FMUL of the operand with itself. -/
theorem fieldSquareResults : Obligations.FieldSquareResults := by
  intro rd a s
  refine ⟨⟨rfl, rfl⟩, ⟨rfl, rfl⟩, fun ha => ⟨?_, ?_, exec_fsqr_eq_exec_fmul rd a s⟩,
    fun ha => ⟨faultsWith_fieldUnary (exec_fsqr rd a s) ha, faultsWith_fieldUnary (exec_fsqr2 rd a s) ha⟩⟩
  · rw [pow_two]
    exact retiresWriting_fieldUnary (exec_fsqr rd a s) ha
  · rw [pow_two, ← mul_assoc]
    exact retiresWriting_fieldUnary (exec_fsqr2 rd a s) ha

/-- Settles O25: k squarings raise a canonical operand to the power 2^k, and a count of 0 breaks R124. -/
theorem fieldPow2kResult : Obligations.FieldPow2kResult := by
  intro rd a k s
  refine ⟨⟨rfl, rfl⟩, fun hk ha => ?_, fun hk => faultsWith_fieldUnary (exec_fpow2k rd a s hk), fun hk => ?_⟩
  · rw [← squareTimes_eq _ _ ha]
    exact retiresWriting_fieldUnary (exec_fpow2k rd a s hk) ha
  · obtain ⟨command, -⟩ := encoded_fields (.fpow2k rd a k)
    exact decode_illegalField command (.inr (decide_eq_false (by omega)))

/-- Settles O27: FCHK writes the operand's own number, which is the operand. -/
theorem fieldCheckResult : Obligations.FieldCheckResult := by
  intro rd a s
  refine ⟨⟨rfl, rfl⟩, fun ha => ?_, faultsWith_fieldUnary (exec_fchk rd a s)⟩
  rw [← toWord_self (s.reg a)]
  exact retiresWriting_fieldUnary (exec_fchk rd a s) ha

/-- Settles O26: the low 255 bits are the number modulo 2^255, and what is reduced is below p. -/
theorem fieldFromBytesResult : Obligations.FieldFromBytesResult := by
  intro rd a s
  have writes : RetiresWriting (.ffromb rd a) s rd
      (BitVec.ofNat 256 (((s.reg a).extractLsb' 0 255).toNat % Config.p)) := by
    rw [BitVec.extractLsb'_toNat, Nat.shiftRight_zero]
    exact retiresWriting_convert (exec_ffromb rd a s)
  exact ⟨⟨rfl, rfl⟩, writes, fun t ht => num_lt_of_retiresWriting writes (Nat.mod_lt _ p_pos) p_lt_word.le ht⟩

/-! ## Canonical results -/

section Canonical

variable {i : Instr} {s : State} {rd a b : Reg}

/-- The command at `s` faults, or writes a number below `m` to V[rd]. -/
def WritesBelow (m : Nat) (i : Instr) (s : State) (rd : Reg) : Prop :=
  (∃ n < m, RetiresWriting i s rd (BitVec.ofNat 256 n)) ∨ ∃ c, FaultsWith i s c

theorem num_lt_of_writesBelow {m : Nat} {t : State} (h : WritesBelow m i s rd) (hm : m ≤ 2 ^ 255)
    (ht : exec i s = .next t) (unfaulted : t.fault = false) : t.num rd < m := by
  rcases h with ⟨n, hn, writes⟩ | ⟨c, faults⟩
  · exact num_lt_of_retiresWriting writes hn hm ht
  · exact absurd (fault_of_faultsWith faults ht) (by rw [unfaulted]; decide)

theorem writesBelow_fieldUnary {f : Nat → Nat} (h : exec i s = .next (settle s (fieldUnary f rd a s)))
    (below : ∀ x < Config.p, f x < Config.p) : WritesBelow Config.p i s rd :=
  (Nat.lt_or_ge (s.num a) Config.p).imp (fun ha => ⟨_, below _ ha, retiresWriting_fieldUnary h ha⟩)
    fun ha => ⟨_, faultsWith_fieldUnary h ha⟩

theorem writesBelow_fieldBinary {f : Nat → Nat → Nat} (h : exec i s = .next (settle s (fieldBinary f rd a b s)))
    (below : ∀ x y, f x y < Config.p) : WritesBelow Config.p i s rd := by
  by_cases canonical : s.num a < Config.p ∧ s.num b < Config.p
  · exact .inl ⟨_, below _ _, retiresWriting_fieldBinary h canonical.1 canonical.2⟩
  · exact .inr ⟨_, faultsWith_fieldBinary h (by omega)⟩

theorem writesBelow_scalarUnary {f : Nat → Nat} (h : exec i s = .next (settle s (scalarUnary f rd a s)))
    (below : ∀ x, f x < Config.L) : WritesBelow Config.L i s rd :=
  (Nat.lt_or_ge (s.num a) Config.L).imp (fun ha => ⟨_, below _, retiresWriting_scalarUnary h ha⟩)
    fun ha => ⟨_, faultsWith_scalarUnary h ha⟩

theorem writesBelow_scalarBinary {f : Nat → Nat → Nat} (h : exec i s = .next (settle s (scalarBinary f rd a b s)))
    (below : ∀ x y, f x y < Config.L) : WritesBelow Config.L i s rd := by
  by_cases canonical : s.num a < Config.L ∧ s.num b < Config.L
  · exact .inl ⟨_, below _ _, retiresWriting_scalarBinary h canonical.1 canonical.2⟩
  · exact .inr ⟨_, faultsWith_scalarBinary h (by omega)⟩

theorem writesBelow_convert {m : Nat} {f : Nat → Nat} (h : exec i s = .next (settle s (convert f rd a s)))
    (below : ∀ x, f x < m) : WritesBelow m i s rd :=
  .inl ⟨_, below _, retiresWriting_convert h⟩

/-- FPOW2K squares at least once, or breaks R124. -/
theorem fpow2k_writesBelow (rd a : Reg) (k : Imm) (s : State) : WritesBelow Config.p (.fpow2k rd a k) s rd := by
  by_cases hk : 1 ≤ k.val
  · exact writesBelow_fieldUnary (exec_fpow2k rd a s hk) fun _ hx => squareTimes_lt _ hx
  · exact .inr ⟨_, faultsWith_of (exec_of_not_wf s (decide_eq_false hk))⟩

theorem fieldCommand_writesBelow (s : State) (lo : 0x08 ≤ i.opcode.toNat) (hi : i.opcode.toNat ≤ 0x10) :
    ∀ r ∈ i.dests, WritesBelow Config.p i s r := by
  have mod_lt (x : Nat) : x % Config.p < Config.p := Nat.mod_lt x p_pos
  cases i with
  | fadd rd a b =>
    exact List.forall_mem_singleton.2 (writesBelow_fieldBinary (exec_fadd rd a b s) fun _ _ => mod_lt _)
  | fsub rd a b =>
    exact List.forall_mem_singleton.2 (writesBelow_fieldBinary (exec_fsub rd a b s) fun _ _ => modulo_lt _ _ p_pos)
  | fneg rd a => exact List.forall_mem_singleton.2 (writesBelow_fieldUnary (exec_fneg rd a s) fun _ _ => mod_lt _)
  | fmul rd a b =>
    exact List.forall_mem_singleton.2 (writesBelow_fieldBinary (exec_fmul rd a b s) fun _ _ => mod_lt _)
  | fsqr rd a => exact List.forall_mem_singleton.2 (writesBelow_fieldUnary (exec_fsqr rd a s) fun _ _ => mod_lt _)
  | fsqr2 rd a => exact List.forall_mem_singleton.2 (writesBelow_fieldUnary (exec_fsqr2 rd a s) fun _ _ => mod_lt _)
  | fpow2k rd a k => exact List.forall_mem_singleton.2 (fpow2k_writesBelow rd a k s)
  | ffromb rd a => exact List.forall_mem_singleton.2 (writesBelow_convert (exec_ffromb rd a s) fun _ => mod_lt _)
  | fchk rd a => exact List.forall_mem_singleton.2 (writesBelow_fieldUnary (exec_fchk rd a s) fun _ hx => hx)
  | _ => simp [Instr.opcode] at lo hi

theorem scalarCommand_writesBelow (s : State) (lo : 0x18 ≤ i.opcode.toNat) (hi : i.opcode.toNat ≤ 0x22) :
    ∀ r ∈ i.dests, WritesBelow Config.L i s r := by
  have mod_lt (x : Nat) : x % Config.L < Config.L := Nat.mod_lt x L_pos
  cases i with
  | sadd rd a b => exact List.forall_mem_singleton.2 (writesBelow_scalarBinary rfl fun _ _ => mod_lt _)
  | ssub rd a b => exact List.forall_mem_singleton.2 (writesBelow_scalarBinary rfl fun _ _ => modulo_lt _ _ L_pos)
  | sneg rd a => exact List.forall_mem_singleton.2 (writesBelow_scalarUnary rfl fun _ => modulo_lt _ _ L_pos)
  | smul rd a b => exact List.forall_mem_singleton.2 (writesBelow_scalarBinary rfl fun _ _ => mod_lt _)
  | ssqr rd a => exact List.forall_mem_singleton.2 (writesBelow_scalarUnary rfl fun _ => mod_lt _)
  | sred rd a => exact List.forall_mem_singleton.2 (writesBelow_convert rfl fun _ => mod_lt _)
  | sredw rd a b => exact List.forall_mem_singleton.2 (.inl ⟨_, mod_lt _, retiresWriting_of rfl⟩)
  | stom rd a => exact List.forall_mem_singleton.2 (writesBelow_convert rfl fun _ => mod_lt _)
  | sfromm rd a => exact List.forall_mem_singleton.2 (writesBelow_convert rfl fun _ => mod_lt _)
  | smmul rd a b => exact List.forall_mem_singleton.2 (writesBelow_scalarBinary rfl fun _ _ => mod_lt _)
  | smsqr rd a => exact List.forall_mem_singleton.2 (writesBelow_scalarUnary rfl fun _ => mod_lt _)
  | _ => simp [Instr.opcode] at lo hi

end Canonical

/-- Settles O40: each command's result is reduced by its modulus, or its canonical operand. -/
theorem resultsAreCanonical : Obligations.ResultsAreCanonical := fun _ s _ _ ht unfaulted =>
  ⟨fun lo hi r hr => num_lt_of_writesBelow (fieldCommand_writesBelow s lo hi r hr) p_lt_word.le ht unfaulted,
    fun lo hi r hr => num_lt_of_writesBelow (scalarCommand_writesBelow s lo hi r hr) (by decide) ht unfaulted⟩

/-! ## Field laws -/

/-- A command that retires, and what it leaves in the registers. -/
theorem retiresWriting_reg {i : Instr} {s : State} {rd : Reg} {x : Word} (h : RetiresWriting i s rd x) :
    ∃ t, exec i s = .next t ∧ t.reg rd = x ∧ ∀ r, r ≠ rd → t.reg r = s.reg r := by
  obtain ⟨t, exec_eq, -, regs⟩ := h
  exact ⟨t, exec_eq, by rw [regs, if_pos rfl], fun r hr => by rw [regs, if_neg hr]⟩

section Laws

variable {s : State} {x y : Reg} (z : Reg) (hx : s.num x < Config.p) (hy : y ≠ x)
include hx hy

/-- x + (-x) = 0. -/
theorem fneg_fadd : ∃ t u, exec (.fneg y x) s = .next t ∧ exec (.fadd z x y) t = .next u ∧ u.reg z = 0 := by
  have neg_lt : s.num x * (Config.p - 1) % Config.p < Config.p := Nat.mod_lt _ p_pos
  obtain ⟨t, ht, y_eq, others⟩ := retiresWriting_num (retiresWriting_fieldUnary (exec_fneg y x s) hx)
    (neg_lt.trans (by decide))
  have x_eq := others x hy.symm
  obtain ⟨u, hu, z_eq, -⟩ := retiresWriting_reg
    (retiresWriting_fieldBinary (exec_fadd z x y t) (x_eq ▸ hx) (y_eq ▸ neg_lt))
  exact ⟨t, u, ht, hu, by rw [z_eq, x_eq, y_eq, add_mul_pred_mod _ p_pos]; rfl⟩

/-- x * 1 = x. -/
theorem ldc_one_fmul : ∃ t u, exec (.ldc y 1) s = .next t ∧ exec (.fmul z x y) t = .next u ∧ u.reg z = s.reg x := by
  have one : RetiresWriting (.ldc y 1) s y (BitVec.ofNat 256 1) := retiresWriting_of rfl
  obtain ⟨t, ht, y_eq, others⟩ := retiresWriting_num one (by decide)
  have x_eq := others x hy.symm
  obtain ⟨u, hu, z_eq, -⟩ := retiresWriting_reg
    (retiresWriting_fieldBinary (exec_fmul z x y t) (x_eq ▸ hx) (y_eq ▸ (by decide : 1 < Config.p)))
  refine ⟨t, u, ht, hu, ?_⟩
  rw [z_eq, x_eq, y_eq, Nat.mul_one, Nat.mod_eq_of_lt hx]
  exact toWord_self (s.reg x)

omit hy in
/-- k squarings and one more are k + 1 squarings. -/
theorem fpow2k_fsqr {k : Imm} (hk : 1 ≤ k.val) (h : k.val + 1 < 1024) :
    ∃ t u w, exec (.fpow2k y x k) s = .next t ∧ exec (.fsqr z y) t = .next u ∧
      exec (.fpow2k z x ⟨k.val + 1, h⟩) s = .next w ∧ u.reg z = w.reg z := by
  have power_lt := squareTimes_lt k.val hx
  obtain ⟨t, ht, y_eq, -⟩ := retiresWriting_num (retiresWriting_fieldUnary (exec_fpow2k y x s hk) hx)
    (power_lt.trans (by decide))
  obtain ⟨u, hu, z_eq, -⟩ := retiresWriting_reg (retiresWriting_fieldUnary (exec_fsqr z y t) (y_eq ▸ power_lt))
  obtain ⟨w, hw, z_eq', -⟩ := retiresWriting_reg
    (retiresWriting_fieldUnary (exec_fpow2k z x s (k := ⟨k.val + 1, h⟩) (Nat.le_add_left 1 _)) hx)
  exact ⟨t, u, w, ht, hu, hw, by rw [z_eq, z_eq', y_eq, squareTimes_succ]⟩

end Laws

/-- FPOW2K with one squaring is FSQR. -/
theorem exec_fpow2k_one (rd a : Reg) (s : State) : exec (.fpow2k rd a 1) s = exec (.fsqr rd a) s := rfl

/-- Settles O41: each law is a run of two commands, or an equation of two commands. -/
theorem fieldLaws : Obligations.FieldLaws := fun s x _ z hx hy =>
  ⟨fneg_fadd z hx hy, ldc_one_fmul z hx hy, exec_fsqr_eq_exec_fmul z x s, exec_fpow2k_one z x s,
    fun _ h hk => fpow2k_fsqr z hx hk h⟩

end Sys2Proof.Machine
end

section
/-! # The scalar unit

The commands of 41_scalar.md. What SADD to SMSQR write is arithmetic modulo L, stated here over numbers; that they retire
writing it, or fault on an operand of L or more, is the law of the shape they share. -/

namespace Sys2Proof.Machine

/-! ## The scalar commands -/

section Equations

variable (rd a b : Reg) (s : State)

theorem exec_sadd : exec (.sadd rd a b) s =
    .next (settle s (scalarBinary (fun x y => (x + y) % Config.L) rd a b s)) := rfl

theorem exec_ssub : exec (.ssub rd a b) s =
    .next (settle s (scalarBinary (fun x y => modulo ((x : Int) - (y : Int)) Config.L) rd a b s)) := rfl

theorem exec_sneg : exec (.sneg rd a) s =
    .next (settle s (scalarUnary (fun x => modulo (-(x : Int)) Config.L) rd a s)) := rfl

theorem exec_smul : exec (.smul rd a b) s =
    .next (settle s (scalarBinary (fun x y => x * y % Config.L) rd a b s)) := rfl

theorem exec_ssqr : exec (.ssqr rd a) s = .next (settle s (scalarUnary (fun x => x * x % Config.L) rd a s)) := rfl

theorem exec_sred : exec (.sred rd a) s = .next (settle s (convert (fun x => x % Config.L) rd a s)) := rfl

theorem exec_sredw : exec (.sredw rd a b) s =
    .next (settle s (.ok (s.setReg rd (toWord (reduceWide (s.num a) (s.num b)))))) := rfl

theorem exec_stom : exec (.stom rd a) s =
    .next (settle s (convert (fun x => x * Config.R % Config.L) rd a s)) := rfl

theorem exec_sfromm : exec (.sfromm rd a) s =
    .next (settle s (convert (fun x => x * rInvModL % Config.L) rd a s)) := rfl

theorem exec_smmul : exec (.smmul rd a b) s =
    .next (settle s (scalarBinary (fun x y => x * y * rInvModL % Config.L) rd a b s)) := rfl

theorem exec_smsqr : exec (.smsqr rd a) s =
    .next (settle s (scalarUnary (fun x => x * x * rInvModL % Config.L) rd a s)) := rfl

/-- A binary command of a register with itself is the unary command. -/
theorem scalarBinary_self (f : Nat → Nat → Nat) : scalarBinary f rd a a s = scalarUnary (fun n => f n n) rd a s := by
  unfold scalarBinary scalarUnary
  cases sc a s <;> rfl

/-- SSQR is SMUL of the operand with itself, at every state (R205). -/
theorem exec_ssqr_eq_exec_smul : exec (.ssqr rd a) s = exec (.smul rd a a) s := by
  rw [exec_smul, scalarBinary_self, exec_ssqr]

/-- SMSQR is SMMUL of the operand with itself, at every state (R211). -/
theorem exec_smsqr_eq_exec_smmul : exec (.smsqr rd a) s = exec (.smmul rd a a) s := by
  rw [exec_smmul, scalarBinary_self, exec_smsqr]

end Equations

/-! ## Arithmetic modulo L -/

/-- Settles O28: the sum of two canonical values is reduced by one subtraction. -/
theorem scalarAddResult : Obligations.ScalarAddResult := by
  intro rd a b s
  refine ⟨⟨rfl, rfl⟩, fun ha hb => ?_, faultsWith_scalarBinary (exec_sadd rd a b s)⟩
  rw [← add_mod_cases ha hb]
  exact retiresWriting_scalarBinary (exec_sadd rd a b s) ha hb

/-- Settles O29: a difference is reduced by one addition, and a negation is L less the value or 0. -/
theorem scalarSubNegResults : Obligations.ScalarSubNegResults := by
  intro rd a b s
  refine ⟨⟨rfl, rfl⟩, ⟨rfl, rfl⟩, fun ha hb => ?sub, fun ha => ?neg,
    faultsWith_scalarBinary (exec_ssub rd a b s), faultsWith_scalarUnary (exec_sneg rd a s)⟩
  case sub =>
    rw [← modulo_sub_cases ha hb]
    exact retiresWriting_scalarBinary (exec_ssub rd a b s) ha hb
  case neg =>
    rw [← modulo_neg_cases ha]
    exact retiresWriting_scalarUnary (exec_sneg rd a s) ha

/-- Settles O30: the square as a product, and SSQR as SMUL of the operand with itself. -/
theorem scalarMulSquareResults : Obligations.ScalarMulSquareResults := by
  intro rd a b s
  refine ⟨⟨rfl, rfl⟩, ⟨rfl, rfl⟩, retiresWriting_scalarBinary (exec_smul rd a b s),
    fun ha => ⟨?_, exec_ssqr_eq_exec_smul rd a s⟩,
    faultsWith_scalarBinary (exec_smul rd a b s), faultsWith_scalarUnary (exec_ssqr rd a s)⟩
  rw [pow_two]
  exact retiresWriting_scalarUnary (exec_ssqr rd a s) ha

/-- Settles O31: SRED checks no operand, and a value below L is its own remainder. -/
theorem scalarReduceResult : Obligations.ScalarReduceResult := by
  intro rd a s
  have writes : RetiresWriting (.sred rd a) s rd (BitVec.ofNat 256 (s.num a % Config.L)) :=
    retiresWriting_convert (exec_sred rd a s)
  refine ⟨⟨rfl, rfl⟩, writes, fun ha => ?_⟩
  rw [Nat.mod_eq_of_lt ha] at writes
  rwa [← toWord_self (s.reg a)]

/-- Settles O32: SREDW writes its pipeline's result, which is the 512-bit value reduced. -/
theorem scalarReduceWideResult : Obligations.ScalarReduceWideResult := by
  intro rd lo hi s
  have writes : RetiresWriting (.sredw rd lo hi) s rd (BitVec.ofNat 256 (reduceWide (s.num lo) (s.num hi))) :=
    retiresWriting_of (exec_sredw rd lo hi s)
  refine ⟨⟨rfl, rfl⟩, ?_, ?_⟩
  · rwa [← two256ModL_eq]
  · rwa [← reduceWide_eq]

/-! ## Montgomery form -/

/-- Settles O33: the inverse of R modulo L is ROM(7), the factor of SFROMM. -/
theorem montgomeryConversionResults : Obligations.MontgomeryConversionResults := by
  intro rd a s
  refine ⟨⟨rfl, rfl⟩, ⟨rfl, rfl⟩, retiresWriting_convert (exec_stom rd a s), fun y hy inverse => ?_⟩
  rw [eq_rInvModL hy inverse]
  exact retiresWriting_convert (exec_sfromm rd a s)

/-- Settles O34: the inverse of R modulo L is ROM(7), the last factor of SMMUL and SMSQR. -/
theorem montgomeryMulSquareResults : Obligations.MontgomeryMulSquareResults := by
  intro rd a b s
  refine ⟨⟨rfl, rfl⟩, ⟨rfl, rfl⟩, fun y hy inverse => ?_, fun _ => exec_smsqr_eq_exec_smmul rd a s,
    faultsWith_scalarBinary (exec_smmul rd a b s), faultsWith_scalarUnary (exec_smsqr rd a s)⟩
  rw [eq_rInvModL hy inverse, pow_two]
  exact ⟨retiresWriting_scalarBinary (exec_smmul rd a b s), retiresWriting_scalarUnary (exec_smsqr rd a s)⟩

/-- Converting a Montgomery form back reduces the value it came from. -/
theorem montgomery_roundTrip (n : Nat) : n * Config.R % Config.L * rInvModL % Config.L = n % Config.L := by
  rw [Nat.mod_mul_mod, Nat.mul_assoc, Nat.mul_mod, R_mul_rInvModL, Nat.mul_one, Nat.mod_mod]

/-- The Montgomery product of two Montgomery forms is the Montgomery form of the product. -/
theorem montgomery_product (m n : Nat) :
    (m * Config.R % Config.L) * (n * Config.R % Config.L) * rInvModL % Config.L = m * n * Config.R % Config.L := by
  calc (m * Config.R % Config.L) * (n * Config.R % Config.L) * rInvModL % Config.L
      = (m * Config.R % Config.L) * (n * Config.R % Config.L * rInvModL % Config.L) % Config.L := by
        rw [Nat.mul_mod_mod, Nat.mul_assoc]
    _ = m * Config.R * n % Config.L := by rw [montgomery_roundTrip, ← Nat.mul_mod]
    _ = m * n * Config.R % Config.L := by rw [Nat.mul_right_comm]

/-- A command that retires writing a value reduced modulo L, and what it leaves in the registers, as numbers. -/
theorem retiresWriting_mod_L {i : Instr} {s : State} {rd : Reg} {n : Nat}
    (h : RetiresWriting i s rd (BitVec.ofNat 256 (n % Config.L))) :
    ∃ t, exec i s = .next t ∧ t.num rd = n % Config.L ∧ ∀ r, r ≠ rd → t.num r = s.num r :=
  retiresWriting_num h ((Nat.mod_lt _ L_pos).trans (by decide))

/-- SFROMM of STOM is SRED. -/
theorem stom_sfromm (s : State) (a x z : Reg) :
    ∃ t u w, exec (.stom x a) s = .next t ∧ exec (.sfromm z x) t = .next u ∧
      exec (.sred z a) s = .next w ∧ u.reg z = w.reg z := by
  obtain ⟨t, ht, x_eq, -⟩ := retiresWriting_mod_L (retiresWriting_convert (exec_stom x a s))
  obtain ⟨u, hu, z_eq, -⟩ := retiresWriting_reg (retiresWriting_convert (exec_sfromm z x t))
  obtain ⟨w, hw, z_eq', -⟩ := retiresWriting_reg (retiresWriting_convert (exec_sred z a s))
  exact ⟨t, u, w, ht, hu, hw, by rw [z_eq, z_eq', x_eq, montgomery_roundTrip]⟩

/-- SFROMM of SMMUL of two Montgomery forms is SMUL of the values they came from. -/
theorem stom_smmul_sfromm {s : State} {a b x y : Reg} (z : Reg) (ha : s.num a < Config.L) (hb : s.num b < Config.L)
    (hxb : x ≠ b) (hxy : x ≠ y) :
    ∃ t u v w d, exec (.stom x a) s = .next t ∧ exec (.stom y b) t = .next u ∧
      exec (.smmul z x y) u = .next v ∧ exec (.sfromm z z) v = .next w ∧
      exec (.smul z a b) s = .next d ∧ w.reg z = d.reg z := by
  have mod_lt (n : Nat) : n % Config.L < Config.L := Nat.mod_lt n L_pos
  obtain ⟨t, ht, x_form, s_others⟩ := retiresWriting_mod_L (retiresWriting_convert (exec_stom x a s))
  obtain ⟨u, hu, y_form, t_others⟩ := retiresWriting_mod_L (retiresWriting_convert (exec_stom y b t))
  have x_eq : u.num x = s.num a * Config.R % Config.L := (t_others x hxy).trans x_form
  have y_eq : u.num y = s.num b * Config.R % Config.L := by rw [y_form, s_others b hxb.symm]
  obtain ⟨v, hv, product, -⟩ := retiresWriting_mod_L
    (retiresWriting_scalarBinary (exec_smmul z x y u) (x_eq ▸ mod_lt _) (y_eq ▸ mod_lt _))
  rw [x_eq, y_eq, montgomery_product] at product
  obtain ⟨w, hw, z_eq, -⟩ := retiresWriting_reg (retiresWriting_convert (exec_sfromm z z v))
  obtain ⟨d, hd, z_eq', -⟩ := retiresWriting_reg (retiresWriting_scalarBinary (exec_smul z a b s) ha hb)
  exact ⟨t, u, v, w, d, ht, hu, hv, hw, hd, by rw [z_eq, z_eq', product, montgomery_roundTrip]⟩

/-- Settles O42: both round trips are runs whose last command undoes the factor R. -/
theorem montgomeryLaws : Obligations.MontgomeryLaws := fun s a _ x _ z =>
  ⟨stom_sfromm s a x z, stom_smmul_sfromm z⟩

end Sys2Proof.Machine
end

section
/-! # The constant ROM

LDC (42_constants.md R241) writes the ROM's entry at its index; the entries are numerals in the model, tied here to what
R240 defines them as. -/

namespace Sys2Proof.Machine

/-! ## The entries that are defined from p, L and R -/

theorem rom_three : rom 3 = some (Config.p - 1) := by decide

theorem rom_four : rom 4 = some Config.p := by decide

theorem rom_five : rom 5 = some Config.L := by decide

theorem rom_six : rom 6 = some (Config.R % Config.L) := by decide

theorem rom_eight : rom 8 = some (2 ^ 256 % Config.L) := congrArg some two256ModL_eq

theorem rInvModL_lt : rInvModL < Config.L := by decide

/-! ## LDC -/

/-- LDC of an index that has an entry retires, writing the entry (R241). -/
theorem retiresWriting_ldc {k : Imm} {n : Nat} (rd : Reg) (s : State) (entry : rom k.val = some n) :
    RetiresWriting (.ldc rd k) s rd (BitVec.ofNat 256 n) :=
  retiresWriting_of (x := toWord n) (by simp only [exec, execLdc, entry])

/-- An index above 8 breaks the constraint of R124. -/
theorem ldc_wf_of_gt {k : Imm} (rd : Reg) (h : 8 < k.val) : (Instr.ldc rd k).wf = false :=
  decide_eq_false (Nat.not_le.2 h)

/-- Settles O17: each index up to 8 has its entry, of which entry 7 inverts R modulo L; an index above 8 breaks R124. -/
theorem ldcLoadsRom : Obligations.LdcLoadsRom := by
  intro rd s
  refine ⟨retiresWriting_ldc rd s rfl, retiresWriting_ldc rd s rfl, retiresWriting_ldc rd s rfl,
    retiresWriting_ldc rd s rom_three, retiresWriting_ldc rd s rom_four, retiresWriting_ldc rd s rom_five,
    retiresWriting_ldc rd s rom_six, ?inverse, retiresWriting_ldc rd s rom_eight, fun k => ⟨⟨rfl, rfl⟩, fun h => ?above⟩⟩
  case inverse => exact ⟨rInvModL, rInvModL_lt, R_mul_rInvModL, retiresWriting_ldc rd s rfl⟩
  case above =>
    obtain ⟨-, not_decoded⟩ := illegalFieldsFault _ s (ldc_wf_of_gt rd h)
    exact not_decoded

end Sys2Proof.Machine
end

section
/-! # The table selects

SEL8 and SELNAF (43_tables.md R257, R258) share everything after their digit checks, and so do their proofs: the digit as a
number, the point selected, and the three registers it is written to. -/

namespace Sys2Proof.Machine

/-! ## The digit (R254) -/

section Digit

variable (s : State) (a : Reg)

theorem digit_natAbs :
    (digit a s).natAbs = if s.num a % 256 < 128 then s.num a % 256 else 256 - s.num a % 256 := by
  have value := digit_eq s a
  unfold State.num
  split at value <;> split <;> omega

theorem digit_neg_iff : digit a s < 0 ↔ 128 ≤ s.num a % 256 := by
  have value := digit_eq s a
  unfold State.num
  split at value <;> omega

theorem digit_even_iff : digit a s % 2 = 0 ↔ s.num a % 256 % 2 = 0 := by
  have value := digit_eq s a
  unfold State.num
  split at value <;> omega

end Digit

/-! ## The point written -/

/-- The command retires at `s`, writes the point `x` to V[rd], V[rd+1], V[rd+2], and changes no other register. -/
def RetiresWritingPoint (i : Instr) (s : State) (rd : Reg) (x : Point) : Prop :=
  ∃ t, exec i s = .next t ∧ Retired s t ∧ ∀ r, t.reg r = if r.val = rd.val then x.ypx
    else if r.val = rd.val + 1 then x.ymx else if r.val = rd.val + 2 then x.xy2d else s.reg r

theorem retiresWritingPoint_of {i : Instr} {s : State} {rd : Reg} {x : Point} (hrd : rd.val ≤ 13)
    (h : exec i s = .next ((s.setPoint rd x).retire false)) : RetiresWritingPoint i s rd x :=
  ⟨_, h, retired_of_regsOnly (regsOnly_setPoint (regsOnly_refl s) rd x), setPoint_reg s rd x hrd⟩

/-- Niels negation of a canonical point, its last coordinate as a number (R256, log 10). -/
theorem neg_of_canonical {x : Point} (h : x.xy2d.toNat < Config.p) :
    x.neg = ⟨x.ymx, x.ypx, BitVec.ofNat 256 ((Config.p - x.xy2d.toNat) % Config.p)⟩ := by
  rw [Point.neg, modulo_neg_eq h]
  rfl

section Selected

variable {s : State} {d : Int} {a first n tbase : Nat}

/-- A number before the first entry's selects the identity. -/
theorem selected_identity (hd : 0 ≤ d) (ha : a < first) : selected s d a first n tbase = Point.identity := by
  simp only [selected]
  rw [if_neg (by omega), if_neg (by omega)]

variable (lo : first ≤ a) (hi : a - first < n)
include lo hi

theorem selected_entry (hd : 0 ≤ d) : selected s d a first n tbase = s.pointAt (tbase + 3 * (a - first)) := by
  simp only [selected]
  rw [if_neg (by omega), if_pos ⟨lo, hi⟩]

/-- For a negative digit, an entry of a canonical table is answered negated. -/
theorem selected_neg_entry (hd : d < 0) (canonical : ∀ k < 3 * n, (s.tread (tbase + k)).toNat < Config.p) :
    selected s d a first n tbase =
      let e := tbase + 3 * (a - first)
      ⟨s.tread (e + 1), s.tread e, BitVec.ofNat 256 ((Config.p - (s.tread (e + 2)).toNat) % Config.p)⟩ := by
  have last := canonical (3 * (a - first) + 2) (by omega)
  simp only [selected]
  rw [if_pos hd, if_pos ⟨lo, hi⟩]
  exact neg_of_canonical last

end Selected

/-! ## SEL8 and SELNAF -/

section Commands

variable {rd a : Reg} {tbase : Imm} {s : State}

theorem sel8_wf_iff : (Instr.sel8 rd a tbase).wf = true ↔ rd.val ≤ 13 ∧ tbase.val + 24 ≤ 1024 := by
  simp only [Instr.wf, Bool.and_eq_true, decide_eq_true_eq]

/-- SEL8 with fields that R124 allows: the digit check, then the select. -/
theorem exec_sel8_of_wf (wf : (Instr.sel8 rd a tbase).wf = true) : exec (.sel8 rd a tbase) s = .next (settle s
    (if digit a s < -8 ∨ 8 < digit a s then .error .badDigit else
      selectInto rd (digit a s) (digit a s).natAbs 1 (s.table tbase.val 8) s)) :=
  congrArg (Host.Outcome.next <| settle s ·) (if_neg (ne_false_of_eq_true wf))

theorem exec_sel8_of_bad_digit (wf : (Instr.sel8 rd a tbase).wf = true) (bad : digit a s < -8 ∨ 8 < digit a s) :
    exec (.sel8 rd a tbase) s = .next (settle s (.error .badDigit)) := by
  rw [exec_sel8_of_wf wf, if_pos bad]

theorem exec_sel8_of_noncanonical (wf : (Instr.sel8 rd a tbase).wf = true)
    (legal : ¬ (digit a s < -8 ∨ 8 < digit a s))
    (h : ¬ ∀ k < 24, (s.tread (tbase.val + k)).toNat < Config.p) :
    exec (.sel8 rd a tbase) s = .next (settle s (.error .noncanonicalFe)) := by
  rw [exec_sel8_of_wf wf, if_neg legal, selectInto_error s rd _ _ 1 8 tbase.val h]

theorem selnaf_wf_iff : (Instr.selnaf rd a tbase).wf = true ↔ rd.val ≤ 13 ∧ tbase.val + 192 ≤ 1024 := by
  simp only [Instr.wf, Bool.and_eq_true, decide_eq_true_eq]

/-- SELNAF with fields that R124 allows: the digit check, then the select. -/
theorem exec_selnaf_of_wf (wf : (Instr.selnaf rd a tbase).wf = true) : exec (.selnaf rd a tbase) s = .next (settle s
    (if digit a s % 2 = 0 ∨ digit a s < -127 then .error .badDigit else
      selectInto rd (digit a s) (((digit a s).natAbs - 1) / 2) 0 (s.table tbase.val 64) s)) :=
  congrArg (Host.Outcome.next <| settle s ·) (if_neg (ne_false_of_eq_true wf))

theorem exec_selnaf_of_bad_digit (wf : (Instr.selnaf rd a tbase).wf = true)
    (bad : digit a s % 2 = 0 ∨ digit a s < -127) :
    exec (.selnaf rd a tbase) s = .next (settle s (.error .badDigit)) := by
  rw [exec_selnaf_of_wf wf, if_pos bad]

theorem exec_selnaf_of_noncanonical (wf : (Instr.selnaf rd a tbase).wf = true)
    (legal : ¬ (digit a s % 2 = 0 ∨ digit a s < -127))
    (h : ¬ ∀ k < 192, (s.tread (tbase.val + k)).toNat < Config.p) :
    exec (.selnaf rd a tbase) s = .next (settle s (.error .noncanonicalFe)) := by
  rw [exec_selnaf_of_wf wf, if_neg legal, selectInto_error s rd _ _ 0 64 tbase.val h]

end Commands

/-- Settles O35: the magnitude of the digit is the number of the entry, counted from 1, so that 0 is before the first. -/
theorem sel8SelectsPoint : Obligations.Sel8SelectsPoint := by
  intro rd a tbase s b m e canonical selects
  have m_eq : (digit a s).natAbs = m := digit_natAbs s a
  have neg_iff : digit a s < 0 ↔ 128 ≤ b := digit_neg_iff s a
  refine ⟨⟨rfl, rfl⟩, fun illegal => ?_, fun hrd htable => ?_⟩
  · have not_wf : (Instr.sel8 rd a tbase).wf = false := Bool.eq_false_iff.2 (mt sel8_wf_iff.1 (by omega))
    exact (illegalFieldsFault _ s not_wf).2
  have wf : (Instr.sel8 rd a tbase).wf = true := sel8_wf_iff.2 ⟨hrd, htable⟩
  have writes (x : Point) (hm : m ≤ 8) (h : canonical) (point : selected s (digit a s) m 1 8 tbase.val = x) :
      RetiresWritingPoint (.sel8 rd a tbase) s rd x :=
    retiresWritingPoint_of hrd (point ▸ m_eq ▸ exec_sel8_ok s rd a tbase wf (by omega) h)
  refine ⟨fun hm => ?bad, fun hm h => ?noncanonical, fun hm h => ?identity, fun lo hm hb h => ?positive,
    fun lo hm hb h => ?negative⟩
  case bad => exact faultsWith_of (exec_sel8_of_bad_digit wf (by omega))
  case noncanonical => exact faultsWith_of (exec_sel8_of_noncanonical wf (by omega) h)
  case identity => exact writes .identity (by omega) h (selected_identity (by omega) (by omega))
  case positive => exact writes (s.pointAt e) hm h (selected_entry lo (by omega) (by omega))
  case negative => exact writes ⟨_, _, _⟩ hm h (selected_neg_entry lo (by omega) (by omega) h)

/-- Settles O36: an odd digit is at least -127, so that the entry numbered half of its magnitude less 1 is in the table. -/
theorem selnafSelectsPoint : Obligations.SelnafSelectsPoint := by
  intro rd a tbase s b m e canonical selects
  have m_eq : (digit a s).natAbs = m := digit_natAbs s a
  have neg_iff : digit a s < 0 ↔ 128 ≤ b := digit_neg_iff s a
  have even_iff : digit a s % 2 = 0 ↔ b % 2 = 0 := digit_even_iff s a
  have range := digit_range s a
  refine ⟨⟨rfl, rfl⟩, fun illegal => ?_, fun hrd htable => ?_⟩
  · have not_wf : (Instr.selnaf rd a tbase).wf = false := Bool.eq_false_iff.2 (mt selnaf_wf_iff.1 (by omega))
    exact (illegalFieldsFault _ s not_wf).2
  have wf : (Instr.selnaf rd a tbase).wf = true := selnaf_wf_iff.2 ⟨hrd, htable⟩
  have writes (x : Point) (odd : b % 2 = 1) (h : canonical)
      (point : selected s (digit a s) ((m - 1) / 2) 0 64 tbase.val = x) :
      RetiresWritingPoint (.selnaf rd a tbase) s rd x :=
    retiresWritingPoint_of hrd (point ▸ m_eq ▸ exec_selnaf_ok s rd a tbase wf (by omega) h)
  refine ⟨fun even => ?bad, fun odd h => ?noncanonical, fun odd hb h => ?positive, fun odd hb h => ?negative⟩
  case bad => exact faultsWith_of (exec_selnaf_of_bad_digit wf (by omega))
  case noncanonical => exact faultsWith_of (exec_selnaf_of_noncanonical wf (by omega) h)
  case positive => exact writes (s.pointAt e) odd h (selected_entry (Nat.zero_le _) (by omega) (by omega))
  case negative => exact writes ⟨_, _, _⟩ odd h (selected_neg_entry (Nat.zero_le _) (by omega) (by omega) h)

end Sys2Proof.Machine
end

section
/-! # What a command's result depends on

The untimed part of the constant-time contract (43_tables.md R259, 70_reset_and_hazards.md R350, log 6): two runs of one
command from states that agree on what its word says it reads end alike. -/

namespace Sys2Proof.Machine

/-! ## Writing a list of registers -/

/-- The registers of the list written, the first entry first. -/
def State.writeAll (s : State) (ws : List (Reg × Word)) : State := ws.foldl (fun u w => u.setReg w.1 w.2) s

@[simp] theorem writeAll_cons (s : State) (w : Reg × Word) (ws : List (Reg × Word)) :
    s.writeAll (w :: ws) = (s.setReg w.1 w.2).writeAll ws := rfl

theorem regsOnly_writeAll {s u : State} (h : RegsOnly s u) (ws : List (Reg × Word)) : RegsOnly s (u.writeAll ws) := by
  induction ws generalizing u with
  | nil => exact h
  | cons w ws ih => exact ih (regsOnly_setReg h w.1 w.2)

theorem writeAll_reg_of_not_mem {ws : List (Reg × Word)} {r : Reg} (h : r ∉ ws.map Prod.fst) (s : State) :
    (s.writeAll ws).reg r = s.reg r := by
  induction ws generalizing s with
  | nil => rfl
  | cons w ws ih =>
    rw [List.map_cons, List.mem_cons, not_or] at h
    rw [writeAll_cons, ih h.2, setReg_reg_of_ne _ _ _ _ h.1]

/-- What a written register holds does not depend on the state written to. -/
theorem writeAll_reg_of_mem {ws : List (Reg × Word)} {r : Reg} (h : r ∈ ws.map Prod.fst) (s s' : State) :
    (s.writeAll ws).reg r = (s'.writeAll ws).reg r := by
  induction ws generalizing s s' with
  | nil => cases h
  | cons w ws ih =>
    by_cases later : r ∈ ws.map Prod.fst
    · exact ih later _ _
    · obtain rfl : r = w.1 := (List.mem_cons.1 h).resolve_right later
      simp only [writeAll_cons, writeAll_reg_of_not_mem later, setReg_reg_self]

/-! ## Two runs that end alike -/

/-- Two runs of a command, from `s` and from `s'`, end alike: both retire after writing the same words to the same
registers, those of `D`, or both fault with the same cause. -/
inductive EndsAlike (D : List Reg) (halt : Bool) (s s' : State) : State → State → Prop
  | retires (ws : List (Reg × Word)) (dests : ws.map Prod.fst = D) :
      EndsAlike D halt s s' ((s.writeAll ws).retire halt) ((s'.writeAll ws).retire halt)
  | faults (c : Cause) : EndsAlike D halt s s' (s.raise c) (s'.raise c)

section Shapes

variable {s s' : State} {D : List Reg} {a b : Reg} (rd : Reg)

/-- The operand checks of a command are the same, and so is what it does after them. -/
theorem endsAlike_bind {α : Type} {x x' : Except Cause α} {k k' : α → Except Cause State} (same : x = x')
    (rest : ∀ v, EndsAlike D false s s' (settle s (k v)) (settle s' (k' v))) :
    EndsAlike D false s s' (settle s (x >>= k)) (settle s' (x' >>= k')) := by
  subst same
  cases x with
  | error c => exact .faults c
  | ok v => exact rest v

/-- The two runs branch alike on a condition that is the same in both. -/
theorem endsAlike_ite {c : Prop} [Decidable c] {x x' y y' : Except Cause State}
    (hx : EndsAlike D false s s' (settle s x) (settle s' x')) (hy : EndsAlike D false s s' (settle s y) (settle s' y')) :
    EndsAlike D false s s' (settle s (if c then x else y)) (settle s' (if c then x' else y')) := by
  split
  · exact hx
  · exact hy

theorem endsAlike_setReg (x : Word) :
    EndsAlike [rd] false s s' (settle s (.ok (s.setReg rd x))) (settle s' (.ok (s'.setReg rd x))) :=
  .retires [(rd, x)] rfl

theorem endsAlike_setPoint (x : Point) : EndsAlike [rd, rd + 1, rd + 2] false s s'
    (settle s (.ok (s.setPoint rd x))) (settle s' (.ok (s'.setPoint rd x))) :=
  .retires [(rd, x.ypx), (rd + 1, x.ymx), (rd + 2, x.xy2d)] rfl

theorem choice_congr (h : s.reg a = s'.reg a) : choice a s = choice a s' := by simp only [choice, h]

theorem fe_congr (h : s.reg a = s'.reg a) : fe a s = fe a s' := by simp only [fe, h]

theorem sc_congr (h : s.reg a = s'.reg a) : sc a s = sc a s' := by simp only [sc, h]

theorem digit_congr (h : s.reg a = s'.reg a) : digit a s = digit a s' := by simp only [digit, h]

theorem table_congr {tbase n : Nat} (h : ∀ e ∈ List.range' tbase (3 * n), s.tread e = s'.tread e) :
    s.table tbase n = s'.table tbase n := by
  refine List.map_congr_left fun j hj => ?_
  have hj : j < n := List.mem_range.1 hj
  have entry (k : Nat) (hk : k < 3) : s.tread (tbase + 3 * j + k) = s'.tread (tbase + 3 * j + k) :=
    h _ (List.mem_range'_1.2 ⟨by omega, by omega⟩)
  exact Point.mk.injEq .. ▸ ⟨entry 0 (by decide), entry 1 (by decide), entry 2 (by decide)⟩

theorem endsAlike_fieldUnary (f : Nat → Nat) (regs : ∀ r ∈ [a], s.reg r = s'.reg r) :
    EndsAlike [rd] false s s' (settle s (fieldUnary f rd a s)) (settle s' (fieldUnary f rd a s')) :=
  endsAlike_bind (fe_congr (regs a (by simp))) fun _ => endsAlike_setReg rd _

theorem endsAlike_fieldBinary (f : Nat → Nat → Nat) (regs : ∀ r ∈ [a, b], s.reg r = s'.reg r) :
    EndsAlike [rd] false s s' (settle s (fieldBinary f rd a b s)) (settle s' (fieldBinary f rd a b s')) :=
  endsAlike_bind (fe_congr (regs a (by simp))) fun _ =>
    endsAlike_bind (fe_congr (regs b (by simp))) fun _ => endsAlike_setReg rd _

theorem endsAlike_scalarUnary (f : Nat → Nat) (regs : ∀ r ∈ [a], s.reg r = s'.reg r) :
    EndsAlike [rd] false s s' (settle s (scalarUnary f rd a s)) (settle s' (scalarUnary f rd a s')) :=
  endsAlike_bind (sc_congr (regs a (by simp))) fun _ => endsAlike_setReg rd _

theorem endsAlike_scalarBinary (f : Nat → Nat → Nat) (regs : ∀ r ∈ [a, b], s.reg r = s'.reg r) :
    EndsAlike [rd] false s s' (settle s (scalarBinary f rd a b s)) (settle s' (scalarBinary f rd a b s')) :=
  endsAlike_bind (sc_congr (regs a (by simp))) fun _ =>
    endsAlike_bind (sc_congr (regs b (by simp))) fun _ => endsAlike_setReg rd _

theorem endsAlike_convert (f : Nat → Nat) (regs : ∀ r ∈ [a], s.reg r = s'.reg r) :
    EndsAlike [rd] false s s' (settle s (convert f rd a s)) (settle s' (convert f rd a s')) := by
  unfold convert
  rw [regs a (by simp)]
  exact endsAlike_setReg rd _

theorem endsAlike_selectInto (d : Int) (n first : Nat) {tbl tbl' : List Point} (same : tbl = tbl') :
    EndsAlike [rd, rd + 1, rd + 2] false s s' (settle s (selectInto rd d n first tbl s))
      (settle s' (selectInto rd d n first tbl' s')) := by
  subst same
  exact endsAlike_ite (endsAlike_setPoint rd _) (.faults _)

end Shapes

/-! ## All commands -/

/-- Everything two runs of a command can do from states that agree on what it reads. -/
theorem exec_endsAlike (i : Instr) {s s' : State} (regs : ∀ r ∈ i.sources, s.reg r = s'.reg r)
    (entries : ∀ e ∈ i.tableReads, s.tread e = s'.tread e) :
    ∃ t t', exec i s = .next t ∧ exec i s' = .next t' ∧ EndsAlike i.dests (decide (i = .halt)) s s' t t' := by
  cases i with
  | nop => exact ⟨_, _, rfl, rfl, .retires [] rfl⟩
  | halt => exact ⟨_, _, rfl, rfl, .retires [] rfl⟩
  | mov rd a =>
    refine ⟨_, _, rfl, rfl, ?_⟩
    rw [regs a (by simp [Instr.sources])]
    exact endsAlike_setReg rd _
  | ldc rd k =>
    refine ⟨_, _, rfl, rfl, ?_⟩
    cases rom k.val with
    | none => exact .faults _
    | some x => exact endsAlike_setReg rd _
  | csel rd a b c =>
    refine ⟨_, _, rfl, rfl, endsAlike_bind (choice_congr (regs c (by simp [Instr.sources]))) fun _ => ?_⟩
    rw [regs a (by simp [Instr.sources]), regs b (by simp [Instr.sources])]
    exact endsAlike_setReg rd _
  | cswap a b c =>
    refine ⟨_, _, rfl, rfl, endsAlike_bind (choice_congr (regs c (by simp [Instr.sources]))) fun _ => ?_⟩
    rw [regs a (by simp [Instr.sources]), regs b (by simp [Instr.sources])]
    exact .retires [(a, _), (b, _)] rfl
  | fadd rd a b => exact ⟨_, _, rfl, rfl, endsAlike_fieldBinary rd _ regs⟩
  | fsub rd a b => exact ⟨_, _, rfl, rfl, endsAlike_fieldBinary rd _ regs⟩
  | fneg rd a => exact ⟨_, _, rfl, rfl, endsAlike_fieldUnary rd _ regs⟩
  | fmul rd a b => exact ⟨_, _, rfl, rfl, endsAlike_fieldBinary rd _ regs⟩
  | fsqr rd a => exact ⟨_, _, rfl, rfl, endsAlike_fieldUnary rd _ regs⟩
  | fsqr2 rd a => exact ⟨_, _, rfl, rfl, endsAlike_fieldUnary rd _ regs⟩
  | fpow2k rd a k => exact ⟨_, _, rfl, rfl, endsAlike_ite (endsAlike_fieldUnary rd _ regs) (.faults _)⟩
  | ffromb rd a => exact ⟨_, _, rfl, rfl, endsAlike_convert rd _ regs⟩
  | fchk rd a => exact ⟨_, _, rfl, rfl, endsAlike_fieldUnary rd _ regs⟩
  | sadd rd a b => exact ⟨_, _, rfl, rfl, endsAlike_scalarBinary rd _ regs⟩
  | ssub rd a b => exact ⟨_, _, rfl, rfl, endsAlike_scalarBinary rd _ regs⟩
  | sneg rd a => exact ⟨_, _, rfl, rfl, endsAlike_scalarUnary rd _ regs⟩
  | smul rd a b => exact ⟨_, _, rfl, rfl, endsAlike_scalarBinary rd _ regs⟩
  | ssqr rd a => exact ⟨_, _, rfl, rfl, endsAlike_scalarUnary rd _ regs⟩
  | sred rd a => exact ⟨_, _, rfl, rfl, endsAlike_convert rd _ regs⟩
  | sredw rd a b =>
    refine ⟨_, _, rfl, rfl, ?_⟩
    rw [regs a (by simp [Instr.sources]), regs b (by simp [Instr.sources])]
    exact endsAlike_setReg rd _
  | stom rd a => exact ⟨_, _, rfl, rfl, endsAlike_convert rd _ regs⟩
  | sfromm rd a => exact ⟨_, _, rfl, rfl, endsAlike_convert rd _ regs⟩
  | smmul rd a b => exact ⟨_, _, rfl, rfl, endsAlike_scalarBinary rd _ regs⟩
  | smsqr rd a => exact ⟨_, _, rfl, rfl, endsAlike_scalarUnary rd _ regs⟩
  | sel8 rd a tbase =>
    refine ⟨_, _, rfl, rfl, ?_⟩
    rw [digit_congr (regs a (by simp [Instr.sources]))]
    exact endsAlike_ite (.faults _) (endsAlike_ite (.faults _) (endsAlike_selectInto rd _ _ 1 (table_congr entries)))
  | selnaf rd a tbase =>
    refine ⟨_, _, rfl, rfl, ?_⟩
    rw [digit_congr (regs a (by simp [Instr.sources]))]
    exact endsAlike_ite (.faults _) (endsAlike_ite (.faults _) (endsAlike_selectInto rd _ _ 0 (table_congr entries)))

/-- A command that changes no register but its destinations and then retires, HALT or any other. -/
theorem retiredAs_of_regsOnly {i : Instr} {s u : State} (regsOnly : RegsOnly s u)
    (others : ∀ r, r ∉ i.dests → u.reg r = s.reg r) : RetiredAs i s (u.retire (decide (i = .halt))) := by
  obtain ⟨v, rfl⟩ := regsOnly
  refine ⟨rfl, rfl, fun stops => ?_, fun not_halt no_single => ?_, others,
    ⟨rfl, rfl, rfl, rfl, rfl, rfl, rfl, fun _ => rfl, rfl, rfl, rfl⟩⟩
  · rcases stops with halt | single
    · simp [halt]
    · simp [single]
  · simp [not_halt, no_single]

/-- Settles O39: the two runs end alike, by the same writes or with the same cause. -/
theorem resultsDependOnReadsOnly : Obligations.ResultsDependOnReadsOnly := by
  intro i s s' t t' regs entries ht ht'
  obtain ⟨u, u', hu, hu', alike⟩ := exec_endsAlike i regs entries
  obtain rfl : u = t := Host.Outcome.next.inj (hu.symm.trans ht)
  obtain rfl : u' = t' := Host.Outcome.next.inj (hu'.symm.trans ht')
  cases alike with
  | faults c => exact .inl ⟨c, faulted_raise s c, faulted_raise s' c⟩
  | retires ws dests =>
    have retired (w : State) : RetiredAs i w ((w.writeAll ws).retire (decide (i = .halt))) :=
      retiredAs_of_regsOnly (regsOnly_writeAll (regsOnly_refl w) ws) fun _ hr => writeAll_reg_of_not_mem (dests ▸ hr) w
    exact .inr ⟨retired s, retired s', fun _ hr => writeAll_reg_of_mem (dests ▸ hr) s s'⟩

end Sys2Proof.Machine
end

section
/-! # Sequencing

Fetch, decode, execution and retirement (44_sequencing.md R280 to R288): the sequencer's turn at each kind of word, the
commands NOP, HALT and MOV, the start of a run (R290) and its end (R291). -/

namespace Sys2Proof.Machine

/-! ## The sequencer's turn -/

section SequencerTurn

variable {s : State}

theorem step_of_no_turn (h : s.agenda = []) : step s = sequencerTurn s := by
  simp only [step, h]

theorem step_of_sequencer {rest : List Turn} (h : s.agenda = .sequencer :: rest) :
    step s = sequencerTurn { s with agenda := rest } := by
  simp only [step, h]

theorem sequencerTurn_idle (idle : s.busy = false) : sequencerTurn s = .next s := by
  simp only [sequencerTurn, idle, Bool.false_eq_true, if_false]

theorem sequencerTurn_running (running : s.busy = true) : sequencerTurn s = runCommand s := by
  simp only [sequencerTurn, running, if_true]

/-- A running core past the end of IMEM fetches nothing (44_sequencing.md R281). -/
theorem sequencerTurn_past_end (running : s.busy = true) (h : 256 ≤ s.cp.toNat) :
    sequencerTurn s = .next (s.raise .cpRange) := by
  rw [sequencerTurn_running running, runCommand, fetch_error s h]

/-- A running core whose word does not decode enters the fault state with the decoder's cause (44_sequencing.md R282). -/
theorem sequencerTurn_of_decode_error {c : Cause} (running : s.busy = true) (h : s.cp.toNat < 256)
    (hd : decode (s.iread s.cp.toNat) = .error c) : sequencerTurn s = .next (s.raise c) := by
  rw [sequencerTurn_running running, runCommand, fetch_ok s h]
  simp only [hd]

/-- A running core executes the command its word decodes to (44_sequencing.md R280). -/
theorem sequencerTurn_of_decode_ok {i : Instr} (running : s.busy = true) (h : s.cp.toNat < 256)
    (hd : decode (s.iread s.cp.toNat) = .ok i) : sequencerTurn s = exec i s := by
  rw [sequencerTurn_running running, runCommand, fetch_ok s h]
  simp only [hd]

theorem fetchedWord_of_lt (h : s.cp.toNat < 256) : s.fetchedWord = s.iread s.cp.toNat := if_neg (by omega)

theorem fetchedWord_of_ge (h : 256 ≤ s.cp.toNat) : s.fetchedWord = 0 := if_pos h

/-- Past the end of IMEM the turn is fault entry with CP_RANGE, and no word is recorded (60_exceptions.md R302). -/
theorem sequencerTurn_past_end_faulted (running : s.busy = true) (h : 256 ≤ s.cp.toNat) :
    ∃ t, sequencerTurn s = .next t ∧ Faulted .cpRange s t ∧ t.faultCmd = 0 :=
  ⟨_, sequencerTurn_past_end running h, faulted_raise s _, fetchedWord_of_ge h⟩

end SequencerTurn

/-- Settles O8: the step is the sequencer's turn, which executes the decoded command. -/
theorem stepRunsDecodedCommand : Obligations.StepRunsDecodedCommand := by
  intro s i running in_range hd
  refine ⟨fun agenda => ?_, fun rest agenda => ?_⟩
  · rw [step_of_no_turn agenda, sequencerTurn_of_decode_ok running in_range hd]
  · rw [step_of_sequencer agenda]
    exact sequencerTurn_of_decode_ok (s := { s with agenda := rest }) running in_range hd

/-- Settles O11: the step is the turn of an idle sequencer. -/
theorem idleSequencerDoesNothing : Obligations.IdleSequencerDoesNothing := by
  intro s idle
  refine ⟨fun agenda => ?_, fun rest agenda => ?_⟩
  · rw [step_of_no_turn agenda, sequencerTurn_idle idle]
  · rw [step_of_sequencer agenda]
    exact sequencerTurn_idle (s := { s with agenda := rest }) idle

/-- Settles O10: the decoder's faults are these two, and the turn is fault entry with the one it gave. -/
theorem illegalWordFaults : Obligations.IllegalWordFaults := by
  intro s c running agenda in_range hd
  refine ⟨decode_error hd, s.raise c, ?_, faulted_raise s c, fetchedWord_of_lt in_range, rfl⟩
  rw [step_of_no_turn agenda, sequencerTurn_of_decode_error running in_range hd]

/-- Settles O57: the step is the turn of one of the three agents, and each of them answers. -/
theorem stepAlwaysAnswers : Obligations.StepAlwaysAnswers := by
  intro s
  rcases step_cases s with ⟨u, -, e⟩ | ⟨a, rest, -, e⟩ | ⟨rest, -, e⟩
  · obtain ⟨t, ht, -⟩ := sequencerTurn_cases u
    exact ⟨t, e.trans ht⟩
  · exact ⟨_, e⟩
  · exact ⟨_, e⟩

/-! ## Retirement -/

/-- Every command retires or enters the fault state. -/
theorem exec_retiredAs_or_faulted (i : Instr) (s : State) :
    ∃ t, exec i s = .next t ∧ (RetiredAs i s t ∨ ∃ c, Faulted c s t) := by
  obtain ⟨t, ht, ⟨u, regsOnly, others, rfl⟩ | ⟨c, rfl⟩⟩ := exec_settles s i
  · exact ⟨_, ht, .inl (retiredAs_of_regsOnly regsOnly others)⟩
  · exact ⟨_, ht, .inr ⟨c, faulted_raise s c⟩⟩

/-- Settles O37: what retirement says, clause by clause. -/
theorem everyCommandRetiresOrFaults : Obligations.EveryCommandRetiresOrFaults := by
  intro i s
  obtain ⟨t, ht, retired | faulted⟩ := exec_retiredAs_or_faulted i s
  · exact ⟨t, ht, .inl ⟨retired.cp, retired.cmdCount, retired.stopped, retired.running, retired.same, retired.others⟩⟩
  · exact ⟨t, ht, .inr faulted⟩

/-- Below 256 the pointer plus one does not wrap in its nine bits. -/
theorem cp_add_one_toNat {s : State} (h : s.cp.toNat < 256) : (s.cp + 1).toNat = s.cp.toNat + 1 := by
  bv_omega

/-- Settles O9: a command that leaves FAULT clear retired, and past the end the turn faults whether listed or not. -/
theorem fetchPastEndFaults : Obligations.FetchPastEndFaults := by
  intro s
  refine ⟨fetch_ok s, fun last _ i t ht no_fault => ?_, fun past running => ⟨fun agenda => ?_, fun rest agenda => ?_⟩⟩
  · obtain ⟨u, hu, retired | ⟨c, faulted⟩⟩ := exec_retiredAs_or_faulted i s
    all_goals obtain rfl := Host.Outcome.next.inj (hu.symm.trans ht)
    · rw [retired.cp, cp_add_one_toNat (by omega), last]
    · exact absurd faulted.fault (by simp [no_fault])
  · rw [step_of_no_turn agenda]
    exact sequencerTurn_past_end_faulted running past
  · rw [step_of_sequencer agenda]
    exact sequencerTurn_past_end_faulted (s := { s with agenda := rest }) running past

/-! ## NOP, HALT, MOV -/

/-- Only one word decodes to a command, so any other word that names it is refused (30_encoding.md R130). -/
theorem decode_illegalField_of_ne_encode {w : Word32} {i : Instr} (command : commandOf w = some i) (ne : w ≠ encode i) :
    decode w = .error .illegalField := by
  refine decode_illegalField command ?_
  by_contra legal
  simp only [not_or, not_not, Bool.not_eq_false] at legal
  exact ne (encode_of_decode (decode_eq_ok.2 ⟨command, legal⟩)).symm

theorem encode_nop : encode .nop = 0x04000000 := by decide

theorem encode_halt : encode .halt = 0x08000000 := by decide

theorem commandOf_nop {w : Word32} (h : w.toNat / 2 ^ 26 = 0x01) : commandOf w = some .nop := by
  simp only [commandOf, fieldOp_toNat, h]

theorem commandOf_halt {w : Word32} (h : w.toNat / 2 ^ 26 = 0x02) : commandOf w = some .halt := by
  simp only [commandOf, fieldOp_toNat, h]

/-- Settles O14: NOP has one word, and its meaning is retirement in the state it finds. -/
theorem nopOnlyRetires : Obligations.NopOnlyRetires := by
  refine ⟨encode_nop, fun w op ne => ?_, fun s => ⟨_, rfl, retired_of_regsOnly (regsOnly_refl s), fun _ => rfl⟩⟩
  exact decode_illegalField_of_ne_encode (commandOf_nop op) (encode_nop ▸ ne)

/-- Settles O15: HALT has one word, and its meaning is the retirement that stops the run. -/
theorem haltRetiresAndStops : Obligations.HaltRetiresAndStops := by
  refine ⟨encode_halt, fun w op ne => decode_illegalField_of_ne_encode (commandOf_halt op) (encode_halt ▸ ne), fun s => ?_⟩
  have retired : RetiredAs .halt s (s.retire true) := retiredAs_of_regsOnly (regsOnly_refl s) fun _ _ => rfl
  obtain ⟨busy, done⟩ := retired.stopped (.inl rfl)
  exact ⟨_, rfl, retired.cp, retired.cmdCount, busy, done, retired.same, fun _ => rfl⟩

/-- Settles O16: MOV is the write of its source's value, and nothing is checked. -/
theorem movCopies : Obligations.MovCopies := fun _ _ _ => ⟨rfl, rfl, retiresWriting_of rfl⟩

/-! ## Start and end of a run -/

/-- Settles O52: the write is `State.writeCtrl`, whose START acts under the rule's condition. -/
theorem startBeginsRun : Obligations.StartBeginsRun := by
  intro s x no_reset
  refine ⟨s.writeCtrl x, busAccess_ctrl s x, ?_⟩
  rw [writeCtrl_of_no_reset s x no_reset]
  refine ⟨rfl, rfl, fun start idle no_fault => ?starts, fun no_start => ?keeps, rfl⟩
  case starts => simp [start, idle, no_fault]
  case keeps =>
    have not_starts : (x.getLsbD 0 && !s.busy && !s.fault) = false := by
      rcases no_start with h | h | h <;> simp only [h, Bool.not_true, Bool.and_false, Bool.false_and]
    simp only [not_starts, Bool.not_false, Bool.and_true, Bool.or_false, and_self]

/-- A sound core with a run in progress that no other agent's turn interrupts. -/
structure RunsAlone (s : State) : Prop where
  inv : s.Inv
  running : s.busy = true
  agenda : s.agenda = []

/-- The run is over, by a stop or by a fault and not by both (44_sequencing.md R291). -/
def RunEnded (t : State) : Prop := t.busy = false ∧ (t.done = true ∧ t.fault = false ∨ t.fault = true ∧ t.done = false)

/-- A run of one step more is that step and then the run. -/
theorem run_succ (M : Host.Core) {s t : M.State} (k : Nat) (h : M.step s = .next t) : M.run (k + 1) s = M.run k t := by
  rw [Host.Core.run, h]

section Run

variable {s : State}

/-- Fault entry ends a run, whose DONE was clear. -/
theorem raise_runEnded (h : RunsAlone s) (c : Cause) : RunEnded (s.raise c) :=
  ⟨rfl, .inr ⟨rfl, h.inv.runNotDone h.running⟩⟩

/-- Retirement ends a run, or leaves it in progress at the next index. -/
theorem retire_runEnded_or_runsAlone (h : RunsAlone s) (v : Vector Word 16) (halt : Bool) :
    RunEnded (State.retire halt { s with v := v }) ∨ RunsAlone (State.retire halt { s with v := v }) := by
  have inv := retire_inv (withRegs_inv h.inv v) h.running halt
  cases stops : halt || s.singleStep with
  | true =>
    refine .inl ⟨?_, .inl ⟨?_, h.inv.runNoFault h.running⟩⟩
    · rw [retire_busy, stops, Bool.not_true, Bool.and_false]
    · rw [retire_done, stops, Bool.or_true]
  | false =>
    refine .inr ⟨inv, ?_, h.agenda⟩
    rw [retire_busy, stops, h.running, Bool.not_false, Bool.and_true]

/-- A step ends the run, or goes on to the next index; past the end of IMEM it can only end it. -/
theorem step_runEnded_or_runsAlone (h : RunsAlone s) : ∃ t, step s = .next t ∧
    (RunEnded t ∨ s.cp.toNat < 256 ∧ t.cp.toNat = s.cp.toNat + 1 ∧ RunsAlone t) := by
  rw [step_of_no_turn h.agenda]
  rcases Nat.lt_or_ge s.cp.toNat 256 with in_range | past
  · rw [sequencerTurn_running h.running]
    obtain ⟨t, ht, ⟨v, halt, rfl⟩ | ⟨c, rfl⟩⟩ := runCommand_moves s
    · exact ⟨_, ht, (retire_runEnded_or_runsAlone h v halt).imp_right fun goes_on =>
        ⟨in_range, cp_add_one_toNat in_range, goes_on⟩⟩
    · exact ⟨_, ht, .inl (raise_runEnded h c)⟩
  · exact ⟨_, sequencerTurn_past_end h.running past, .inl (raise_runEnded h _)⟩

/-- With `n` indexes left in IMEM a run ends within `n + 1` steps: each step uses one, and the last faults. -/
theorem run_ends {n : Nat} (h : RunsAlone s) (left : 256 ≤ s.cp.toNat + n) :
    ∃ k ≤ n + 1, ∃ t : State, Host.Core.run Sys2Proof.core k s = .next t ∧ RunEnded t := by
  induction n generalizing s with
  | zero =>
    obtain ⟨t, ht, ended | ⟨in_range, -⟩⟩ := step_runEnded_or_runsAlone h
    · exact ⟨1, by omega, t, run_succ Sys2Proof.core 0 ht, ended⟩
    · omega
  | succ n ih =>
    obtain ⟨t, ht, ended | ⟨-, next_cp, goes_on⟩⟩ := step_runEnded_or_runsAlone h
    · exact ⟨1, by omega, t, run_succ Sys2Proof.core 0 ht, ended⟩
    · obtain ⟨k, hk, u, hu, ended⟩ := ih goes_on (by omega)
      exact ⟨k + 1, by omega, u, (run_succ Sys2Proof.core k ht).trans hu, ended⟩

end Run

/-- Settles O58: from any CP at most 256 indexes are left. -/
theorem everyRunEnds : Obligations.EveryRunEnds := fun _ inv running agenda =>
  run_ends (n := 256) ⟨inv, running, agenda⟩ (Nat.le_add_left ..)

end Sys2Proof.Machine
end

section
/-! # Exceptions

Fault entry (60_exceptions.md R302, R303), the fault state that only a reset leaves (R306, R307), and the irq level
(R311). -/

namespace Sys2Proof.Machine

/-! ## Fault entry -/

/-- After fault entry FAULT_CAUSE reads the faulting CP above the cause's code (10_state.md R44). -/
theorem raise_faultCauseWord_toNat (s : State) (c : Cause) :
    (s.raise c).faultCauseWord.toNat = s.cp.toNat * 65536 + (causeCode (some c)).toNat :=
  faultCauseWord_toNat (s.raise c)

/-- Settles O13: the frame of fault entry, the cause's code, and the fetched word on either side of CP 256. -/
theorem faultEntryRecord : Obligations.FaultEntryRecord := by
  intro c s raised_at
  refine ⟨faulted_raise s c, ?code, fun past_end => ?noWord, fun in_range => ?word⟩
  case code => rw [raise_faultCauseWord_toNat]; cases c <;> rfl
  case noWord => exact fetchedWord_of_ge (raised_at.1 past_end)
  case word => exact fetchedWord_of_lt (Nat.lt_of_not_le fun past_end => in_range (raised_at.2 past_end))

/-! ## The fault state -/

/-- `t` has the FAULT, BUSY, cause, FCP and FAULT_CMD of `s`. -/
structure SameFault (s t : State) : Prop where
  fault : t.fault = s.fault
  busy : t.busy = s.busy
  cause : t.cause = s.cause
  fcp : t.fcp = s.fcp
  faultCmd : t.faultCmd = s.faultCmd

section FaultState

variable {s : State}

/-- A sound core runs nothing in the fault state. -/
theorem busy_eq_false_of_fault (inv : s.Inv) (faulted : s.fault = true) : s.busy = false :=
  Bool.eq_false_iff.2 fun running => absurd (inv.runNoFault running) (by simp [faulted])

/-- A CTRL write without SOFT_RESET: its START is ignored in the fault state (44_sequencing.md R290). -/
theorem writeCtrl_sameFault (faulted : s.fault = true) {x : Word32} (no_reset : x.getLsbD 1 = false) :
    SameFault s (s.writeCtrl x) := by
  rw [writeCtrl_of_no_reset s x no_reset]
  have no_start : (x.getLsbD 0 && !s.busy && !s.fault) = false := by rw [faulted, Bool.not_true, Bool.and_false]
  refine ⟨rfl, ?_, rfl, rfl, rfl⟩
  simp only [no_start, Bool.or_false]

/-- Of all accesses only a CTRL write reaches the fault state, and it leaves it as it is unless it resets. -/
theorem busAccess_sameFault (faulted : s.fault = true) {a : Access} (no_reset : Turn.resets (.host a) = false) :
    SameFault s (busAccess a s).1 := by
  rcases busAccess_cases s a with h | h | ⟨x, rfl, h⟩ | ⟨x, h⟩ | ⟨-, x, h⟩ | ⟨-, i, x, h⟩ | ⟨-, n, -, x, h⟩ |
    ⟨-, e, -, j, -, x, h⟩ <;> rw [h]
  · exact ⟨rfl, rfl, rfl, rfl, rfl⟩
  · exact ⟨rfl, rfl, rfl, rfl, rfl⟩
  · exact writeCtrl_sameFault faulted no_reset
  all_goals exact ⟨rfl, rfl, rfl, rfl, rfl⟩

/-- An idle sequencer changes nothing, so only a host access is left to look at. -/
theorem step_sameFault {t : State} (idle : s.busy = false) (faulted : s.fault = true)
    (no_reset : ∀ u, s.agenda.head? = some u → u.resets = false) (ht : step s = .next t) : SameFault s t := by
  obtain ⟨idle_no_turn, idle_listed⟩ := idleSequencerDoesNothing s idle
  rcases step_cases s with ⟨-, ⟨agenda, -⟩ | ⟨rest, agenda, -⟩, -⟩ | ⟨a, rest, agenda, e⟩ | ⟨rest, agenda, -⟩
  · obtain rfl := Host.Outcome.next.inj ((idle_no_turn agenda).symm.trans ht)
    exact ⟨rfl, rfl, rfl, rfl, rfl⟩
  · obtain rfl := Host.Outcome.next.inj ((idle_listed rest agenda).symm.trans ht)
    exact ⟨rfl, rfl, rfl, rfl, rfl⟩
  · obtain rfl := Host.Outcome.next.inj (e.symm.trans ht)
    obtain ⟨fault, busy, cause, fcp, faultCmd⟩ := busAccess_sameFault (s := { s with agenda := rest }) faulted
      (no_reset (.host a) (by rw [agenda, List.head?_cons]))
    exact ⟨fault, busy, cause, fcp, faultCmd⟩
  · exact nomatch no_reset .powerOn (by rw [agenda, List.head?_cons])

end FaultState

/-- Settles O59: the step keeps FAULT, BUSY and the record, and a sound faulted core has BUSY clear. -/
theorem faultIsSticky : Obligations.FaultIsSticky := by
  intro s t inv faulted no_reset ht
  have idle := busy_eq_false_of_fault inv faulted
  obtain ⟨fault, busy, cause, fcp, faultCmd⟩ := step_sameFault idle faulted no_reset ht
  exact ⟨fault.trans faulted, busy.trans idle, cause, fcp, faultCmd⟩

/-! ## The irq level -/

theorem bitAt_getLsbD (b : Bool) (n : Nat) {k : Nat} (h : k < 32) : (bitAt b n).getLsbD k = (b && decide (k = n)) := by
  simp only [bitAt, BitVec.getLsbD_shiftLeft, BitVec.getLsbD_setWidth, BitVec.getLsbD_ofBool]
  rcases Nat.lt_trichotomy k n with below | rfl | above
  · simp [below, Nat.ne_of_lt below]
  · simp [h]
  · simp [Nat.ne_of_gt above, Nat.sub_ne_zero_of_lt above]

/-- Bit 4 of STATUS is the irq level (10_state.md R42). -/
theorem statusWord_getLsbD_four (s : State) : s.statusWord.getLsbD 4 = s.irq := by
  simp only [State.statusWord, BitVec.getLsbD_or, bitAt_getLsbD _ _ (show 4 < 32 by decide)]
  simp

theorem irq_eq_true_iff (s : State) : s.irq = true ↔ s.irqEn = true ∧ (s.done = true ∨ s.fault = true) := by
  rw [State.irq, Bool.and_eq_true, Bool.or_eq_true]

/-- Settles O54: the level by its definition, and the bit of STATUS that reads it. -/
theorem irqLevel : Obligations.IrqLevel := fun s => ⟨irq_eq_true_iff s, statusWord_getLsbD_four s⟩

end Sys2Proof.Machine
end

section
/-! # The resets

What the power-on reset and the soft reset leave behind (70_reset_and_hazards.md R341, R342). -/

namespace Sys2Proof.Machine

/-! ## The reset values -/

/-- Every field of R51's power-on column has its value. Of IMEM, TMEM and the model's own fields it says nothing. -/
structure State.HasResetValues (t : State) : Prop where
  reg : ∀ r, t.reg r = 0
  cp : t.cp = 0
  irqEn : t.irqEn = false
  singleStep : t.singleStep = false
  busy : t.busy = false
  done : t.done = false
  fault : t.fault = false
  accessErr : t.accessErr = false
  cause : t.cause = none
  fcp : t.fcp = 0
  faultCmd : t.faultCmd = 0
  cmdCount : t.cmdCount = 0

/-- Both resets, and the first state, have this form. -/
theorem hasResetValues_of_form (m : Memory) (p : Nat) (turns : List Turn) (answers : List BusReply) :
    State.HasResetValues { State.reset with mem := m, powerOns := p, agenda := turns, replies := answers } :=
  ⟨reset_reg, rfl, rfl, rfl, rfl, rfl, rfl, rfl, rfl, rfl, rfl, rfl⟩

theorem reset_hasResetValues : State.reset.HasResetValues := hasResetValues_of_form [] 0 [] []

theorem powerOnReset_hasResetValues (s : State) : s.powerOnReset.HasResetValues :=
  hasResetValues_of_form [] (s.powerOns + 1) s.agenda s.replies

theorem softReset_hasResetValues (s : State) : s.softReset.HasResetValues :=
  hasResetValues_of_form s.mem s.powerOns s.agenda s.replies

/-! ## What the window and the irq output show of them -/

namespace State.HasResetValues

variable {t : State}

theorem irq (h : t.HasResetValues) : t.irq = false := by
  rw [State.irq, h.irqEn, Bool.false_and]

theorem statusWord (h : t.HasResetValues) : t.statusWord = 0 := by
  refine BitVec.eq_of_toNat_eq ?_
  rw [statusWord_toNat, h.busy, h.done, h.fault, h.accessErr, h.irq]
  rfl

theorem faultCauseWord (h : t.HasResetValues) : t.faultCauseWord = 0 := by
  refine BitVec.eq_of_toNat_eq ?_
  rw [faultCauseWord_toNat, h.fcp, h.cause]
  rfl

end State.HasResetValues

/-! ## Power-on and soft reset -/

/-- Settles O1: both states have R51's values, and the words are read off the fields. -/
theorem powerOnResetValues : Obligations.PowerOnResetValues := by
  intro s t ht
  have h : t.HasResetValues := by
    obtain rfl | rfl := List.mem_pair.1 ht
    · exact powerOnReset_hasResetValues s
    · exact reset_hasResetValues
  exact ⟨h.reg, h.cp, h.irqEn, h.singleStep, h.statusWord, h.busy, h.done, h.fault, h.accessErr,
    h.faultCauseWord, h.faultCmd, h.cmdCount, h.irq⟩

/-- In the first state every byte of IMEM and TMEM is the draw of the power-on counted 0. -/
@[simp] theorem reset_readByte (a : Nat) : State.reset.readByte a = Config.powerOnByte 0 a := rfl

/-- Settles O2: neither state lists a written byte, so every byte reads as its draw. -/
theorem powerOnDrawsArrays : Obligations.PowerOnDrawsArrays :=
  ⟨fun s => ⟨powerOnReset_powerOns s, powerOnReset_readByte s⟩, reset_readByte⟩

/-- A CTRL write with SOFT_RESET is a soft reset, acknowledged, whether the core runs or not (20_memory.md R91 does not lock
CTRL). -/
theorem busAccess_ctrl_of_reset (s : State) {x : Word32} (reset : x.getLsbD 1 = true) :
    busAccess ⟨4, 0x004, .write x⟩ s = (s.softReset, .ack) := by
  rw [busAccess_ctrl, writeCtrl_of_reset s x reset]

/-- Settles O3: the write is a soft reset, which has R51's values and keeps the bytes and the model's own fields. -/
theorem softResetClearsAllButArrays : Obligations.SoftResetClearsAllButArrays := by
  intro s x reset
  have h := softReset_hasResetValues s
  exact ⟨s.softReset, busAccess_ctrl_of_reset s reset, h.reg, h.cp, h.irqEn, h.singleStep, h.busy, h.done, h.fault,
    h.accessErr, h.cause, h.fcp, h.faultCmd, h.cmdCount, h.irq, softReset_readByte s, softReset_powerOns s,
    softReset_agenda s, softReset_replies s⟩

end Sys2Proof.Machine
end
